-- ==== Sys2Proof/Config.lean ====
section
/-! DEFINITION. The configuration record `Cfg` of 00_scope.md R5, its well-formedness check R6, the reference
configurations R7, and the model's one free value (what the environment drives when nothing else says). -/

namespace Sys2Proof

/-- The frame consumer variant CONSUMER (00_scope.md R5, 41_decoder.md R105). -/
inductive Consumer where
  /-- PwmConsumer: decode and re-encode. -/
  | pwm
  /-- LoggingConsumer: decode only. -/
  | log
  deriving DecidableEq, Repr

/-- EDGE_SEL (00_scope.md R5, 41_decoder.md R113): informational, read by no rule. -/
inductive EdgeSel where
  | rising
  | falling
  deriving DecidableEq, Repr

/-- `ceil(log2(n))` (R5, field CURSOR_W); 0 for `n <= 1`. -/
def ceilLog2 (n : Nat) : Nat :=
  if n ≤ 1 then 0 else Nat.log2 (n - 1) + 1

/-- The raw configuration record of 00_scope.md R5, one field per row of its table (CURSOR_W is derived, below). -/
structure Cfg where
  /-- `N`: ChannelFrame capacity in slots. -/
  n : Nat
  /-- `VALID_COUNT`: number of leading slots the Validity Filter checks. -/
  validCount : Nat
  /-- `SYNC_GAP_THRESHOLD`, in ticks. -/
  syncGapThreshold : Nat
  /-- `PW_MIN`: lower bound of ValidRange, inclusive. -/
  pwMin : Nat
  /-- `PW_MAX`: upper bound of ValidRange, inclusive. -/
  pwMax : Nat
  /-- `THROTTLE_IDX`: the slot the Re-Encoder reads. -/
  throttleIdx : Nat
  /-- `MIN_DUTY`. -/
  minDuty : Nat
  /-- `MAX_DUTY`. -/
  maxDuty : Nat
  /-- `TICK_W`: width of `now`, `last_edge`, `elapsed`. -/
  tickW : Nat
  /-- `PW_W`: width of one ChannelFrame slot. -/
  pwW : Nat
  /-- `DUTY_W`: width of `pwm_shadow` and `pwm_active`. -/
  dutyW : Nat
  /-- `CONSUMER`. -/
  consumer : Consumer
  /-- `EDGE_SEL`. -/
  edgeSel : EdgeSel
  deriving DecidableEq, Repr

namespace Cfg

/-- `CURSOR_W = max(1, ceil(log2(N)))` (00_scope.md R5, 10_state.md R23). -/
def cursorW (g : Cfg) : Nat := max 1 (ceilLog2 g.n)

/-- R6: `N >= 2`, `1 <= VALID_COUNT <= N`, `THROTTLE_IDX < VALID_COUNT`. -/
def slotsOk (g : Cfg) : Bool :=
  decide (2 ≤ g.n) && decide (1 ≤ g.validCount) && decide (g.validCount ≤ g.n) && decide (g.throttleIdx < g.validCount)

/-- R6: `11 <= PW_W <= TICK_W` and `TICK_W >= 12`. -/
def widthsOk (g : Cfg) : Bool :=
  decide (11 ≤ g.pwW) && decide (g.pwW ≤ g.tickW) && decide (12 ≤ g.tickW)

/-- R6: `DUTY_W >= 1`, `0 <= MAX_DUTY <= 2^DUTY_W - 1`, `MIN_DUTY = 0`. -/
def dutyOk (g : Cfg) : Bool :=
  decide (1 ≤ g.dutyW) && decide (g.maxDuty ≤ 2 ^ g.dutyW - 1) && decide (g.minDuty = 0)

/-- R5, R31 and decision D23: the threshold and the ValidRange are fixed constants. DEDUCED, log 5. -/
def constantsOk (g : Cfg) : Bool :=
  decide (g.syncGapThreshold = 2100) && decide (g.pwMin = 1000) && decide (g.pwMax = 2000)

/-- A well-formed configuration: R6, with the constants R5 calls fixed at their fixed values. -/
def wellFormed (g : Cfg) : Bool := g.slotsOk && g.widthsOk && g.dutyOk && g.constantsOk

/-- The record with the consumer variant replaced (R105). -/
def withConsumer (g : Cfg) (v : Consumer) : Cfg :=
  { g with consumer := v }

end Cfg

/-- A configuration the spec's rules apply to: the record of R5 together with the check R6
(93_implementation_defined.md U4: "The model's configuration type carries the well-formedness proof"). Log 4. -/
structure Config extends Cfg where
  wf : toCfg.wellFormed = true
  deriving DecidableEq, Repr

namespace Config

theorem wf_facts (c : Config) :
    (2 ≤ c.n ∧ 1 ≤ c.validCount ∧ c.validCount ≤ c.n ∧ c.throttleIdx < c.validCount) ∧
    (11 ≤ c.pwW ∧ c.pwW ≤ c.tickW ∧ 12 ≤ c.tickW) ∧
    (1 ≤ c.dutyW ∧ c.maxDuty ≤ 2 ^ c.dutyW - 1 ∧ c.minDuty = 0) ∧
    (c.syncGapThreshold = 2100 ∧ c.pwMin = 1000 ∧ c.pwMax = 2000) := by
  have h := c.wf
  simp only [Cfg.wellFormed, Cfg.slotsOk, Cfg.widthsOk, Cfg.dutyOk, Cfg.constantsOk, Bool.and_eq_true,
    decide_eq_true_eq] at h
  tauto

theorem two_le_n (c : Config) : 2 ≤ c.n := c.wf_facts.1.1
theorem validCount_pos (c : Config) : 1 ≤ c.validCount := c.wf_facts.1.2.1
theorem validCount_le_n (c : Config) : c.validCount ≤ c.n := c.wf_facts.1.2.2.1
theorem throttleIdx_lt_validCount (c : Config) : c.throttleIdx < c.validCount := c.wf_facts.1.2.2.2
theorem throttleIdx_lt_n (c : Config) : c.throttleIdx < c.n :=
  Nat.lt_of_lt_of_le c.throttleIdx_lt_validCount c.validCount_le_n
theorem eleven_le_pwW (c : Config) : 11 ≤ c.pwW := c.wf_facts.2.1.1
theorem pwW_le_tickW (c : Config) : c.pwW ≤ c.tickW := c.wf_facts.2.1.2.1
theorem twelve_le_tickW (c : Config) : 12 ≤ c.tickW := c.wf_facts.2.1.2.2
theorem maxDuty_le (c : Config) : c.maxDuty ≤ 2 ^ c.dutyW - 1 := c.wf_facts.2.2.1.2.1
theorem minDuty_eq (c : Config) : c.minDuty = 0 := c.wf_facts.2.2.1.2.2
theorem syncGapThreshold_eq (c : Config) : c.syncGapThreshold = 2100 := c.wf_facts.2.2.2.1
theorem pwMin_eq (c : Config) : c.pwMin = 1000 := c.wf_facts.2.2.2.2.1
theorem pwMax_eq (c : Config) : c.pwMax = 2000 := c.wf_facts.2.2.2.2.2

/-- The same configuration with the other consumer variant (41_decoder.md R105, 43_reencoder.md R145). -/
def withConsumer (c : Config) (v : Consumer) : Config where
  toCfg := c.toCfg.withConsumer v
  wf := c.wf

/-- The reference configuration `REF` (00_scope.md R7). Its EDGE_SEL, which R7 does not list and no rule reads,
is `rising`: DESIGN CHOICE, log 2. -/
def ref : Config where
  n := 9
  validCount := 8
  syncGapThreshold := 2100
  pwMin := 1000
  pwMax := 2000
  throttleIdx := 2
  minDuty := 0
  maxDuty := 65535
  tickW := 32
  pwW := 16
  dutyW := 16
  consumer := .pwm
  edgeSel := .rising
  wf := by decide

/-- `REF32` is `REF` with `PW_W = 32` (00_scope.md R7). -/
def ref32 : Config where
  toCfg := { ref.toCfg with pwW := 32 }
  wf := by decide

/-- FREE VALUE: the word of `w` bits the environment drives in clock cycle `cycle` when the script says nothing of
that cycle (00_scope.md R8: "All nondeterminism of the environment ... is in the choice of the input sequence";
93_implementation_defined.md U6). Nothing constrains it. Log 1. -/
opaque freeInput : (w : Nat) → Nat → BitVec w

end Config

end Sys2Proof
end

