-- ==== Sys2Proof/Syntax.lean ====
section
/-! DEFINITION. The instruction set: one constructor per row of spec/opcode_table.json (30_encoding.md R72). -/

namespace Sys2Proof

/-- The five per-cycle operations (00_scope.md R1, 30_encoding.md R72). The operand of EDGE and EDGE_RELOAD is an
unsigned integer (30_encoding.md R73, R77); that it is below `2^TICK_W` is WellFormed's check, since `TICK_W` is a
parameter. -/
inductive Instr where
  /-- RESET (44_cycle.md R150). -/
  | reset
  /-- IDLE (44_cycle.md R151). -/
  | idle
  /-- RELOAD (43_reencoder.md R135). -/
  | reload
  /-- EDGE `now` (41_decoder.md R100). -/
  | edge (now : Nat)
  /-- EDGE_RELOAD `now` (44_cycle.md R152). -/
  | edgeReload (now : Nat)
  deriving DecidableEq, Repr

end Sys2Proof
end

