-- ==== Sys2Proof/WellFormed.lean ====
section
/-! DEFINITION. Which instructions are well formed under a configuration (30_encoding.md R77: an operand "must be
below `2^TICK_W`"). The configuration's own check is `Cfg.wellFormed` (00_scope.md R6) in Sys2Proof/Config.lean. -/

namespace Sys2Proof

namespace Instr

/-- The check as a Bool. -/
def wellFormed (c : Config) : Instr → Bool
  | .reset => true
  | .idle => true
  | .reload => true
  | .edge now => decide (now < 2 ^ c.tickW)
  | .edgeReload now => decide (now < 2 ^ c.tickW)

/-- The operand, where there is one, fits the operand field `now` (30_encoding.md R71, R77). -/
abbrev WellFormed (c : Config) (i : Instr) : Prop := i.wellFormed c = true

end Instr

end Sys2Proof
end

