-- ==== Sys2Proof/Word.lean ====
section
/-! DEFINITION. The widths of 00_scope.md R5 as types. Every number of the core is unsigned and bit 0 is the least
significant bit (00_scope.md R9, 20_memory.md R52); a value of width `W` is a `BitVec W`. -/

namespace Sys2Proof

/-- A tick count: `now`, `last_edge`, `elapsed` (`TICK_W` bits). -/
abbrev Tick (c : Config) := BitVec c.tickW

/-- One ChannelFrame slot (`PW_W` bits; 10_state.md R21). -/
abbrev Slot (c : Config) := BitVec c.pwW

/-- A duty value (`DUTY_W` bits; 10_state.md R25, R26). -/
abbrev Duty (c : Config) := BitVec c.dutyW

/-- The FrameCursor register (`CURSOR_W` bits; 10_state.md R23). -/
abbrev Cursor (c : Config) := BitVec c.cursorW

/-- The ChannelFrame: `N` slots (10_state.md R21). -/
abbrev Frame (c : Config) := Vector (Slot c) c.n

/-- The three single-bit fields of format V together: the opcode field `op` (30_encoding.md R71). -/
abbrev Op := BitVec 3

/-- The instruction word of format V, `TICK_W + 3` bits: `op` above `now` (30_encoding.md R70, R71). -/
abbrev InputWord (c : Config) := BitVec (3 + c.tickW)

end Sys2Proof
end

