-- ==== Sys2Proof/Decode.lean ====
section
/-! DEFINITION. Format V: the decoder (total on every word, 30_encoding.md R75), the check on a number that is no
word of the format, and the encoder of canonical words (30_encoding.md R71, R72). -/

namespace Sys2Proof

/-! ### Fields of format V (30_encoding.md R71) -/

/-- Field `rst`: bit `TICK_W + 2`. -/
def rstBit (c : Config) (w : InputWord c) : Bool := w.getLsbD (c.tickW + 2)

/-- Field `edge_valid`: bit `TICK_W + 1`. -/
def edgeValidBit (c : Config) (w : InputWord c) : Bool := w.getLsbD (c.tickW + 1)

/-- Field `pwm_reload`: bit `TICK_W`. -/
def pwmReloadBit (c : Config) (w : InputWord c) : Bool := w.getLsbD c.tickW

/-- Field `now`: bits `TICK_W - 1 : 0`. -/
def nowField (c : Config) (w : InputWord c) : Tick c := w.extractLsb' 0 c.tickW

/-! ### Decoder -/

/-- The opcode map of 30_encoding.md R72. `rst` is tested first; the bits an operation ignores are dropped here. -/
def decode (c : Config) (w : InputWord c) : Instr :=
  match rstBit c w, edgeValidBit c w, pwmReloadBit c w with
  | true, _, _ => .reset
  | false, false, false => .idle
  | false, false, true => .reload
  | false, true, false => .edge (nowField c w).toNat
  | false, true, true => .edgeReload (nowField c w).toNat

/-- Why a number is no instruction word. -/
inductive DecodeError where
  /-- It has a bit above `TICK_W + 2`: every word has exactly `TICK_W + 3` bits (30_encoding.md R76). -/
  | wordTooWide
  deriving DecidableEq, Repr

/-- Decoding a number, bit 0 least significant: rejected by name when it does not fit the one format, else decoded. -/
def decodeNat (c : Config) (w : Nat) : Except DecodeError Instr :=
  if w < 2 ^ (3 + c.tickW) then .ok (decode c (BitVec.ofNat (3 + c.tickW) w)) else .error .wordTooWide

/-- The instruction the decoder reads from a word of spec/opcode_table.json, which is laid out for REF (35 bits).
Bits from `nbits` up are 0. Log 8. -/
def decodeTableWord (nbits w : Nat) : Option Instr :=
  match decodeNat Config.ref (w % 2 ^ nbits) with
  | .ok i => some i
  | .error .wordTooWide => none

/-! ### Encoder -/

/-- The opcode field `{rst, edge_valid, pwm_reload}` of the canonical word (30_encoding.md R72). -/
def opOf : Instr → Op
  | .reset => 0b100
  | .idle => 0b000
  | .reload => 0b001
  | .edge _ => 0b010
  | .edgeReload _ => 0b011

/-- The operand field of the canonical word: "The canonical encoding of an operation sets every ignored bit to 0". -/
def operandOf : Instr → Nat
  | .reset => 0
  | .idle => 0
  | .reload => 0
  | .edge now => now
  | .edgeReload now => now

/-- The canonical word of an instruction (30_encoding.md R72), `op` above `now`. -/
def encode (c : Config) (i : Instr) : InputWord c := opOf i ++ BitVec.ofNat c.tickW (operandOf i)

/-! ### The opcode table as data -/

/-- One row of spec/opcode_table.json, for a general `TICK_W`: a word `w` is the row's when `w AND mask = match`. -/
structure OpRow where
  mnemonic : String
  matchBits : Nat
  maskBits : Nat
  deriving DecidableEq, Repr

/-- The five rows, their match and mask as 30_encoding.md R72 gives them for a general `TICK_W` (`t`). -/
def opcodeTable (t : Nat) : List OpRow :=
  [ { mnemonic := "RESET", matchBits := 2 ^ (t + 2), maskBits := 2 ^ (t + 2) },
    { mnemonic := "IDLE", matchBits := 0, maskBits := 7 * 2 ^ t },
    { mnemonic := "RELOAD", matchBits := 2 ^ t, maskBits := 7 * 2 ^ t },
    { mnemonic := "EDGE", matchBits := 2 ^ (t + 1), maskBits := 7 * 2 ^ t },
    { mnemonic := "EDGE_RELOAD", matchBits := 3 * 2 ^ t, maskBits := 7 * 2 ^ t } ]

/-- The row's test on a word. -/
def OpRow.matchesWord (r : OpRow) (w : Nat) : Bool := decide (w &&& r.maskBits = r.matchBits)

/-- The mnemonic of an instruction, as spec/opcode_table.json spells it. -/
def Instr.mnemonic : Instr → String
  | .reset => "RESET"
  | .idle => "IDLE"
  | .reload => "RELOAD"
  | .edge _ => "EDGE"
  | .edgeReload _ => "EDGE_RELOAD"

end Sys2Proof
end

