-- ==== Sys2Proof/Machine/State.lean ====
section
/-! DEFINITION. The state. `CoreState` is the record `S` of 10_state.md R20, exactly its nine fields; `State` is that
record with what surrounds it: the configuration, the input words the environment has still to drive, and the counter
of the free input words (logs 1 and 2). The reset values are 10_state.md R33. -/

namespace Sys2Proof.Machine

/-- The whole state `S` of the core (10_state.md R20). -/
structure CoreState (c : Config) where
  /-- ChannelFrame (R21). -/
  frame : Frame c
  /-- FrameCursor, the sequencing register (R23). It can hold values `>= N`, which no run after a reset reaches. -/
  cursor : Cursor c
  /-- LastEdgeTimestamp (R24). -/
  lastEdge : Tick c
  /-- PwmShadowRegister, the staged duty (R25). -/
  pwmShadow : Duty c
  /-- PwmActiveRegister, the duty in force (R26). -/
  pwmActive : Duty c
  /-- The commit flag load-ok: a commit is pending (R27). -/
  loadOk : Bool
  /-- Hidden: the second phase of the two-phase write is due this cycle (R28). -/
  commitReq : Bool
  /-- The preceding cycle was a frame boundary (R29). -/
  frameDone : Bool
  /-- The result of IS_VALID at the most recent boundary (R30). -/
  frameValid : Bool
  deriving DecidableEq, Repr

/-- `RESET_STATE`: the reset values of 10_state.md R33. -/
def CoreState.reset (c : Config) : CoreState c where
  frame := Vector.replicate c.n 0
  cursor := 0
  lastEdge := 0
  pwmShadow := 0
  pwmActive := 0
  loadOk := false
  commitReq := false
  frameDone := false
  frameValid := false

/-- The machine's state: the core and what surrounds it. -/
structure State where
  /-- `Cfg`, constant for the whole life of the block (00_scope.md R5, 20_memory.md R60). -/
  cfg : Config
  /-- The record `S` of 10_state.md R20. -/
  core : CoreState cfg
  /-- The input words still to be driven, one a clock cycle, the next one first (30_encoding.md R70, R77). -/
  stimulus : List (InputWord cfg)
  /-- The clock cycle's number: the index of the free input word of a cycle `stimulus` does not reach. -/
  cycle : Nat
  deriving DecidableEq, Repr

/-- The same machine with the core in another state. -/
def State.withCore (s : State) (k : CoreState s.cfg) : State :=
  { s with core := k }

/-- There is no fault: "No distinct error codes are produced by this core" and "A model has no fault outcome"
(60_exceptions.md R170, R172). The type is empty, so nothing can raise one. -/
inductive Fault where
  deriving DecidableEq, Repr

/-- Why a step is refused. No meaning refuses anything (60_exceptions.md R172). -/
inductive Refusal where
  /-- Raised by an arm of `exec` for an instruction that has no meaning yet; no arm raises it now. Safe: the machine
  stops where the hardware goes on. -/
  | notModelled (mnemonic : String)
  deriving DecidableEq, Repr

/-- The machine of a configuration right after a RESET cycle, with no script to drive (10_state.md R33). -/
def State.resetWith (c : Config) : State where
  cfg := c
  core := CoreState.reset c
  stimulus := []
  cycle := 0

/-- The machine right after reset, in the reference configuration REF (00_scope.md R7). Logs 1, 2 and 3. -/
def State.reset : State := State.resetWith Config.ref

end Sys2Proof.Machine
end

