-- ==== Sys2Proof/Machine/Operands.lean ====
section
/-! DEFINITION. The operands of an EDGE cycle: the tick count on the port `now`, and what is computed from it
(30_encoding.md R73, R74; 40_timestamp.md R91; 41_decoder.md R102); and the access to one slot of the ChannelFrame
(20_memory.md R51). -/

namespace Sys2Proof.Machine

/-- The operand as the port `now` carries it: an unsigned `TICK_W`-bit integer, used as it stands (30_encoding.md
R73). An ill-formed operand, which the decoder never gives, loses the bits the port does not have: log 7. -/
def nowOperand (c : Config) (now : Nat) : Tick c := BitVec.ofNat c.tickW now

/-- `ELAPSED(now, last) = (now - last) mod 2^TICK_W`: a subtractor whose borrow is discarded (40_timestamp.md R91). -/
def elapsed {c : Config} (now last : Tick c) : Tick c := now - last

/-- `pw = trunc_PW_W(elapsed)`: "`elapsed as pulse-width`" keeps the low `PW_W` bits, without saturating
(41_decoder.md R102). -/
def pulseWidth {c : Config} (e : Tick c) : Slot c := e.setWidth c.pwW

/-- `c1`, the cursor after the store: an integer in `1 .. N`, not a register; unchanged where the guard
`cursor < N` fails (41_decoder.md R102). -/
def postIncrement {c : Config} (cur : Cursor c) : Nat :=
  if cur.toNat < c.n then cur.toNat + 1 else cur.toNat

/-- `S'.cursor <- c1`, reached only with `c1 < N`, which the register holds without loss (41_decoder.md R104). -/
def cursorOf (c : Config) (c1 : Nat) : Cursor c := BitVec.ofNat c.cursorW c1

/-- `MemRead(i, 1)`: one whole slot, at an index below `N` (20_memory.md R51, R53). -/
def memRead {c : Config} (f : Frame c) (i : Fin c.n) : Slot c := f[i]

/-- `MemWrite(i, 1, v)`: `frame[i] <- v` (20_memory.md R51). -/
def memWrite {c : Config} (f : Frame c) (i : Fin c.n) (v : Slot c) : Frame c := f.set i v

/-- The throttle slot's index, below `N` by 00_scope.md R6. -/
def throttleSlot (c : Config) : Fin c.n := ⟨c.throttleIdx, c.throttleIdx_lt_n⟩

end Sys2Proof.Machine
end

