-- ==== Sys2Proof/Machine/Flags.lean ====
section
/-! DEFINITION. What the status flags receive: the boundary test (frame_done, 41_decoder.md R103) and IS_VALID
(frame_valid, 42_validity.md R120). -/

namespace Sys2Proof.Machine

/-- The boundary test: the full `elapsed` strictly above the threshold, or the cursor at capacity
(41_decoder.md R103). -/
def boundary (c : Config) (e : Tick c) (c1 : Nat) : Bool :=
  decide (c.syncGapThreshold < e.toNat) || decide (c.n ≤ c1)

/-- One slot's range check, both bounds inclusive (42_validity.md R120). -/
def slotInRange (c : Config) (v : Slot c) : Bool :=
  decide (c.pwMin ≤ v.toNat) && decide (v.toNat ≤ c.pwMax)

/-- `IS_VALID(F)`: every one of the leading `VALID_COUNT` slots in range; the others are not read
(42_validity.md R120, R122). -/
def isValid {c : Config} (f : Frame c) : Bool :=
  (List.finRange c.validCount).all fun i => slotInRange c (memRead f (i.castLE c.validCount_le_n))

theorem isValid_iff {c : Config} (f : Frame c) :
    isValid f = true ↔ ∀ i : Fin c.n, i.val < c.validCount →
      c.pwMin ≤ (memRead f i).toNat ∧ (memRead f i).toNat ≤ c.pwMax := by
  simp only [isValid, List.all_eq_true, List.mem_finRange, slotInRange, Bool.and_eq_true, decide_eq_true_eq,
    forall_const]
  exact ⟨fun h i hi => h ⟨i.val, hi⟩, fun h i => h (i.castLE c.validCount_le_n) i.isLt⟩

/-- The range DUTY asks for, met by the throttle slot of a valid frame (43_reencoder.md R130;
93_implementation_defined.md U3). -/
theorem isValid_throttle {c : Config} {f : Frame c} (h : isValid f = true) :
    1000 ≤ (memRead f (throttleSlot c)).toNat ∧ (memRead f (throttleSlot c)).toNat ≤ 2000 := by
  have ht := (isValid_iff f).mp h (throttleSlot c) c.throttleIdx_lt_validCount
  rwa [c.pwMin_eq, c.pwMax_eq] at ht

end Sys2Proof.Machine
end

