-- ==== Sys2Proof/Machine/Ops.lean ====
section
/-! DEFINITION. The shared operations: the guarded store, the parts of a clock cycle that several operations share
(44_cycle.md R155), the end of a meaning, and the environment's drive of the next word. There is no operation for
taking an exception or returning from one: the core has neither (60_exceptions.md R170, R177, R178). -/

namespace Sys2Proof.Machine

/-- Step 2's store: `frame[cursor] <- pw` where the guard `cursor < N` holds, else nothing (41_decoder.md R102,
20_memory.md R53). -/
def storeSlot {c : Config} (f : Frame c) (cur : Cursor c) (pw : Slot c) : Frame c :=
  if h : cur.toNat < c.n then memWrite f ⟨cur.toNat, h⟩ pw else f

/-- The reload's half of a cycle: promotion (43_reencoder.md R136) and the flag's clear (R137), both reading the
state before the cycle; a commit due in the same cycle, which overrides the clear, is `commitPhase`'s. -/
def reloadPhase {c : Config} (k : CoreState c) : CoreState c :=
  { k with
    pwmActive := if k.loadOk then k.pwmShadow else k.pwmActive
    loadOk := false }

/-- What every non-reset cycle does: the commit phase (43_reencoder.md R134), whose set of `load_ok` overrides a
reload's clear (R140), and `frame_done <- 0` (44_cycle.md R155), which a boundary overrides. -/
def commitPhase {c : Config} (k : CoreState c) : CoreState c :=
  { k with
    loadOk := k.commitReq || k.loadOk
    commitReq := false
    frameDone := false }

/-- The end of a meaning: the cycle's one next state. -/
def finish (s : State) (k : CoreState s.cfg) : Host.Outcome State Fault Refusal := .next (s.withCore k)

/-- The word the environment drives in this cycle: the script's next one, past its end a free one (30_encoding.md
R70: "the word of cycle `k` is whatever the environment drives in cycle `k`"). Log 1. -/
def drivenWord (s : State) : InputWord s.cfg :=
  match s.stimulus with
  | w :: _ => w
  | [] => Config.freeInput (3 + s.cfg.tickW) s.cycle

/-- The environment after that drive: the script advanced by a word, one clock cycle counted. -/
def advance (s : State) : State :=
  { s with stimulus := s.stimulus.tail, cycle := s.cycle + 1 }

/-- The script with one more word in front of it. -/
def pushWord (s : State) (w : InputWord s.cfg) : State :=
  { s with stimulus := w :: s.stimulus }

end Sys2Proof.Machine
end

