-- ==== Sys2Proof/Machine/ReEncoder.lean ====
section
/-! DEFINITION. The PWM Re-Encoder and the operation RELOAD (43_reencoder.md). -/

namespace Sys2Proof.Machine

/-- `DUTY(v) = floor((v - 1000) * MAX_DUTY / 1000)`, the product exact, defined for `1000 <= v <= 2000` only
(43_reencoder.md R130; 93_implementation_defined.md U3: "Give `DUTY` a precondition"). Log 6. -/
def duty {c : Config} (v : Slot c) (_inRange : 1000 ≤ v.toNat ∧ v.toNat ≤ 2000) : Duty c :=
  BitVec.ofNat c.dutyW ((v.toNat - 1000) * c.maxDuty / 1000)

/-- `CONSUME(F)` for a valid frame `F = k.frame`: with CONSUMER = PWM phase 1 of the two-phase write
(43_reencoder.md R133), with CONSUMER = LOG nothing (41_decoder.md R105). -/
def consume {c : Config} (k : CoreState c) (valid : isValid k.frame = true) : CoreState c :=
  match c.consumer with
  | .pwm =>
    { k with
      pwmShadow := duty (memRead k.frame (throttleSlot c)) (isValid_throttle valid)
      commitReq := true }
  | .log => k

/-- One RELOAD cycle of the core (43_reencoder.md R135). -/
def reloadCycle {c : Config} (k : CoreState c) : CoreState c := commitPhase (reloadPhase k)

/-- RELOAD (43_reencoder.md R135). -/
def execReload (s : State) : Host.Outcome State Fault Refusal := finish s (reloadCycle s.core)

end Sys2Proof.Machine
end

