-- ==== Sys2Proof/Machine/Decoder.lean ====
section
/-! DEFINITION. The PPM Frame Decoder and the operation EDGE (41_decoder.md). -/

namespace Sys2Proof.Machine

/-- Boundary actions on the completed frame `k.frame`: the flags, the consumer if the frame is valid, `cursor <- 0`;
no slot is cleared (41_decoder.md R104, R109). -/
def completeFrame {c : Config} (k : CoreState c) : CoreState c :=
  let judged := { k with frameDone := true, frameValid := isValid k.frame, cursor := 0 }
  if h : isValid k.frame = true then consume judged h else judged

/-- The decoder's half of a cycle with an edge: step 1 (41_decoder.md R101), step 2 (R102), step 3 (R103) and the
actions of R104. The boundary test and what follows it read the frame after the store (20_memory.md R56). -/
def edgePhase {c : Config} (now : Tick c) (k : CoreState c) : CoreState c :=
  let e := elapsed now k.lastEdge
  let c1 := postIncrement k.cursor
  let stored := { k with lastEdge := now, frame := storeSlot k.frame k.cursor (pulseWidth e) }
  if boundary c e c1 then completeFrame stored
  else { stored with frameDone := false, cursor := cursorOf c c1 }

/-- One EDGE cycle of the core; the commit phase of the previous boundary runs in it too (41_decoder.md R100,
44_cycle.md R154 item 6). -/
def edgeCycle {c : Config} (now : Tick c) (k : CoreState c) : CoreState c := edgePhase now (commitPhase k)

/-- EDGE `now` (41_decoder.md R100). -/
def execEdge (now : Nat) (s : State) : Host.Outcome State Fault Refusal :=
  finish s (edgeCycle (nowOperand s.cfg now) s.core)

end Sys2Proof.Machine
end

