-- ==== Sys2Proof/Machine/Cycle.lean ====
section
/-! DEFINITION. The remaining operations: RESET, IDLE and EDGE_RELOAD (44_cycle.md). -/

namespace Sys2Proof.Machine

/-- RESET: `S' <- RESET_STATE`, whatever the state was (44_cycle.md R150). -/
def execReset (s : State) : Host.Outcome State Fault Refusal := finish s (CoreState.reset s.cfg)

/-- One IDLE cycle of the core (44_cycle.md R151). -/
def idleCycle {c : Config} (k : CoreState c) : CoreState c := commitPhase k

/-- IDLE (44_cycle.md R151). -/
def execIdle (s : State) : Host.Outcome State Fault Refusal := finish s (idleCycle s.core)

/-- One EDGE_RELOAD cycle of the core: the union of EDGE and RELOAD. The reload's half comes first and writes nothing
the decoder's half reads, so both read the state before the cycle (44_cycle.md R152). -/
def edgeReloadCycle {c : Config} (now : Tick c) (k : CoreState c) : CoreState c :=
  edgePhase now (commitPhase (reloadPhase k))

/-- EDGE_RELOAD `now` (44_cycle.md R152). -/
def execEdgeReload (now : Nat) (s : State) : Host.Outcome State Fault Refusal :=
  finish s (edgeReloadCycle (nowOperand s.cfg now) s.core)

end Sys2Proof.Machine
end

