-- ==== Sys2Proof/Machine/Dispatch.lean ====
section
/-! DEFINITION. One arm per constructor of Instr: which meaning an instruction has. -/

namespace Sys2Proof.Machine

def exec (i : Instr) (s : State) : Host.Outcome State Fault Refusal :=
  match i with
  | .reset => Sys2Proof.Machine.execReset s
  | .idle => Sys2Proof.Machine.execIdle s
  | .reload => Sys2Proof.Machine.execReload s
  | .edge now => Sys2Proof.Machine.execEdge now s
  | .edgeReload now => Sys2Proof.Machine.execEdgeReload now s

end Sys2Proof.Machine
end

