-- ==== Sys2Proof/Machine/Step.lean ====
section
/-! DEFINITION. One step is one clock cycle (00_scope.md R8): the environment drives a word, the decoder reads it, and
its operation runs. -/

namespace Sys2Proof.Machine

/-- One clock cycle: `S' = STEP(Cfg, S, in)` with `in` the word driven in it (00_scope.md R8, 30_encoding.md R70). -/
def step (s : State) : Host.Outcome State Fault Refusal :=
  exec (decode s.cfg (drivenWord s)) (advance s)

/-- The machine whose very next step runs the word `w` (bits from `nbits` up are 0). Log 8. -/
def State.withFetchWord (s : State) (nbits w : Nat) : State :=
  pushWord s (BitVec.ofNat (3 + s.cfg.tickW) (w % 2 ^ nbits))

end Sys2Proof.Machine
end

