-- ==== Sys2Proof/Machine/Outputs.lean ====
section
/-! DEFINITION. The output ports (10_state.md R36): each a direct view of a state field, so the core is a Moore machine
(44_cycle.md R156) and reading has no side effect (20_memory.md R54). -/

namespace Sys2Proof.Machine

/-- The seven output ports of 10_state.md R36. `last_edge` and `commit_req` have no output. -/
structure Outputs (c : Config) where
  dutyActive : Duty c
  dutyShadow : Duty c
  loadOk : Bool
  frameOut : BitVec (c.n * c.pwW)
  cursorOut : Cursor c
  frameDone : Bool
  frameValid : Bool
  deriving DecidableEq, Repr

/-- Slots side by side, the first in the least significant bits. -/
def packSlots (w : Nat) : List (BitVec w) → Nat
  | [] => 0
  | v :: vs => v.toNat + 2 ^ w * packSlots w vs

/-- `frame_out`: slot `i` in bits `(i+1)*PW_W - 1 : i*PW_W` (20_memory.md R52). -/
def frameOut {c : Config} (f : Frame c) : BitVec (c.n * c.pwW) :=
  BitVec.ofNat (c.n * c.pwW) (packSlots c.pwW f.toList)

/-- The outputs during a cycle: the fields' values before that cycle's clock edge (10_state.md R36). -/
def outputs {c : Config} (k : CoreState c) : Outputs c where
  dutyActive := k.pwmActive
  dutyShadow := k.pwmShadow
  loadOk := k.loadOk
  frameOut := frameOut k.frame
  cursorOut := k.cursor
  frameDone := k.frameDone
  frameValid := k.frameValid

end Sys2Proof.Machine
end

