-- ==== Sys2Proof/Machine/Reference.lean ====
section
/-! DEFINITION. `STEP(Cfg, S, in)` of 44_cycle.md R155, transcribed line by line in integer arithmetic and apart from
the meanings, which share none of it: the clear definition that the meanings are compared with. -/

namespace Sys2Proof.Machine

/-- `in = (rst, edge_valid, pwm_reload, now)` (44_cycle.md R155, 10_state.md R35). -/
structure InputVector (c : Config) where
  rst : Bool
  edgeValid : Bool
  pwmReload : Bool
  now : Tick c
  deriving DecidableEq, Repr

/-- The input vector that a word of format V is (30_encoding.md R70, R71). -/
def inputOf (c : Config) (w : InputWord c) : InputVector c where
  rst := rstBit c w
  edgeValid := edgeValidBit c w
  pwmReload := pwmReloadBit c w
  now := nowField c w

/-- `IS_VALID(F)` as 42_validity.md R120 writes it, in integers. -/
def refValid (c : Config) (f : Frame c) : Bool :=
  decide (∀ i : Fin c.n, i.val < c.validCount → 1000 ≤ f[i].toNat ∧ f[i].toNat ≤ 2000)

/-- The PWM side and the commit phase of R155; `s` is the state before the cycle. -/
def refPwmSide {c : Config} (s : CoreState c) (inp : InputVector c) : CoreState c :=
  let s' := s
  let s' := if inp.pwmReload && s.loadOk then { s' with pwmActive := s.pwmShadow } else s'
  let s' := if inp.pwmReload then { s' with loadOk := false } else s'
  let s' := if s.commitReq then { s' with loadOk := true } else s'
  { s' with commitReq := false, frameDone := false }

/-- The decoder side of R155; `s` is the state before the cycle, `s'` what the cycle has assigned so far. -/
def refDecoderSide {c : Config} (s s' : CoreState c) (inp : InputVector c) : CoreState c :=
  let e := (inp.now.toNat + 2 ^ c.tickW - s.lastEdge.toNat) % 2 ^ c.tickW
  let f : Frame c :=
    if h : s.cursor.toNat < c.n then s.frame.set s.cursor.toNat (BitVec.ofNat c.pwW (e % 2 ^ c.pwW)) else s.frame
  let c1 := if s.cursor.toNat < c.n then s.cursor.toNat + 1 else s.cursor.toNat
  let s' := { s' with lastEdge := inp.now, frame := f }
  if 2100 < e ∨ c.n ≤ c1 then
    let v := refValid c f
    let s' := { s' with frameDone := true, frameValid := v, cursor := 0 }
    if v && c.consumer == .pwm then
      { s' with
        pwmShadow := BitVec.ofNat c.dutyW (((f[c.throttleIdx]'c.throttleIdx_lt_n).toNat - 1000) * c.maxDuty / 1000)
        commitReq := true }
    else s'
  else { s' with cursor := BitVec.ofNat c.cursorW c1 }

/-- `STEP(Cfg, S, in)`, the whole next-state function (44_cycle.md R155). -/
def stepFunction (c : Config) (s : CoreState c) (inp : InputVector c) : CoreState c :=
  if inp.rst then CoreState.reset c
  else if inp.edgeValid then refDecoderSide s (refPwmSide s inp) inp
  else refPwmSide s inp

end Sys2Proof.Machine
end

