-- ==== Sys2Proof/Machine/Stimulus.lean ====
section
/-! DEFINITION. The stimulus syntax: statements, pseudo-instructions, their text and the assembler (30_encoding.md R77,
R78). It has no effect on the hardware (decision D4). Log 10. -/

namespace Sys2Proof.Machine

/-- One statement of a stimulus script: an operation (30_encoding.md R77) or a pseudo-instruction (R78). -/
inductive Statement where
  /-- `RESET`, `IDLE`, `RELOAD`, `EDGE now`, `EDGE_RELOAD now`. -/
  | op (i : Instr)
  /-- `PULSE d`: an edge `d` ticks after the previous one. -/
  | pulse (d : Nat)
  /-- `PULSE_RELOAD d`: the same, with a reload in the same cycle. -/
  | pulseReload (d : Nat)
  /-- `IDLE n`: `n` statements `IDLE`, `n >= 1`. -/
  | idles (n : Nat)
  deriving DecidableEq, Repr

/-- The operand "must be below `2^TICK_W`" (R77), and `IDLE n` has `n >= 1` (R78). -/
def Statement.wellFormed (c : Config) : Statement → Bool
  | .op i => i.wellFormed c
  | .pulse d => decide (d < 2 ^ c.tickW)
  | .pulseReload d => decide (d < 2 ^ c.tickW)
  | .idles n => decide (1 ≤ n) && decide (n < 2 ^ c.tickW)

/-- The assembler's variable `t` after a statement (R78). -/
def tickAfter (c : Config) (t : Tick c) : Statement → Tick c
  | .op .reset => 0
  | .op .idle => t
  | .op .reload => t
  | .op (.edge now) => BitVec.ofNat c.tickW now
  | .op (.edgeReload now) => BitVec.ofNat c.tickW now
  | .pulse d => t + BitVec.ofNat c.tickW d
  | .pulseReload d => t + BitVec.ofNat c.tickW d
  | .idles _ => t

/-- The operations a statement stands for, `t` being the assembler's variable before it (R78). -/
def expand (c : Config) (t : Tick c) : Statement → List Instr
  | .op i => [i]
  | .pulse d => [.edge (t + BitVec.ofNat c.tickW d).toNat]
  | .pulseReload d => [.edgeReload (t + BitVec.ofNat c.tickW d).toNat]
  | .idles n => List.replicate n .idle

/-- The operations of a script, from the assembler's variable at `t`. -/
def expandScript (c : Config) (t : Tick c) : List Statement → List Instr
  | [] => []
  | st :: rest => expand c t st ++ expandScript c (tickAfter c t st) rest

/-- The assembler's variable at the end of a script that starts with it at `t`. -/
def tickAtEnd (c : Config) (t : Tick c) (script : List Statement) : Tick c :=
  script.foldl (tickAfter c) t

/-- The assembler: each operation to its canonical word (R77), `t` being 0 at the start of a script (R78). -/
def assemble (c : Config) (script : List Statement) : List (InputWord c) :=
  (expandScript c 0 script).map (encode c)

/-! ### Text (30_encoding.md R77): `statement := mnemonic [operand] [';' comment]`, one a line -/

/-- The value of a digit below `base` (10 or 16), if the character is one. -/
def digitValue (base : Nat) (ch : Char) : Option Nat :=
  let n := ch.toNat
  let v :=
    if 48 ≤ n ∧ n ≤ 57 then some (n - 48)
    else if 65 ≤ n ∧ n ≤ 70 then some (n - 55)
    else if 97 ≤ n ∧ n ≤ 102 then some (n - 87)
    else none
  v.filter (· < base)

/-- A non-empty digit string's value, most significant digit first. -/
def numberIn (base : Nat) (digits : List Char) : Option Nat :=
  match digits with
  | [] => none
  | _ => digits.foldlM (fun acc ch => (digitValue base ch).map (base * acc + ·)) 0

/-- An operand: "an unsigned integer in decimal or in hexadecimal with prefix `0x`". -/
def parseOperand : List Char → Option Nat
  | '0' :: 'x' :: digits => numberIn 16 digits
  | digits => numberIn 10 digits

/-- The words of a line, separated by spaces and tabs. -/
def tokens (line : List Char) : List (List Char) :=
  (line.foldr
    (fun ch acc =>
      if ch = ' ' ∨ ch = '\t' then [] :: acc
      else match acc with
        | [] => [[ch]]
        | w :: ws => (ch :: w) :: ws)
    [[]]).filter (· ≠ [])

/-- The statement of a line's tokens: mnemonics are upper case, and each takes an operand or none. -/
def parseTokens : List (List Char) → Option Statement
  | [['R', 'E', 'S', 'E', 'T']] => some (.op .reset)
  | [['I', 'D', 'L', 'E']] => some (.op .idle)
  | [['I', 'D', 'L', 'E'], n] => (parseOperand n).map .idles
  | [['R', 'E', 'L', 'O', 'A', 'D']] => some (.op .reload)
  | [['E', 'D', 'G', 'E'], now] => (parseOperand now).map fun v => .op (.edge v)
  | [['E', 'D', 'G', 'E', '_', 'R', 'E', 'L', 'O', 'A', 'D'], now] => (parseOperand now).map fun v => .op (.edgeReload v)
  | [['P', 'U', 'L', 'S', 'E'], d] => (parseOperand d).map .pulse
  | [['P', 'U', 'L', 'S', 'E', '_', 'R', 'E', 'L', 'O', 'A', 'D'], d] => (parseOperand d).map .pulseReload
  | _ => none

/-- One line: the comment from ';' on dropped, the statement parsed and its operand's bound checked. -/
def parseLine (c : Config) (line : List Char) : Option Statement :=
  (parseTokens (tokens (line.takeWhile (· ≠ ';')))).filter (·.wellFormed c)

/-- A script's text, line by line, to the words of its cycles; nothing if a line is no statement. -/
def assembleText (c : Config) (lines : List (List Char)) : Option (List (InputWord c)) :=
  (lines.mapM (parseLine c)).map (assemble c)

end Sys2Proof.Machine
end

