-- ==== Sys2Proof/Safety.lean ====
section
/-! DEFINITION. What claims speak of: the invariant of the core's state, one cycle's boundary and validity in integer
terms, and a run of the core (44_cycle.md R158). -/

namespace Sys2Proof.Machine

/-! ### One cycle, in the spec's integers -/

/-- `elapsed` of the cycle: `(now - S.last_edge) mod 2^TICK_W` (40_timestamp.md R91). -/
def CoreState.elapsedAt {c : Config} (k : CoreState c) (now : Tick c) : Nat :=
  (now.toNat + 2 ^ c.tickW - k.lastEdge.toNat) % 2 ^ c.tickW

/-- The boundary test of an edge at `now` in state `k` with `S.cursor < N`: a gap above 2100, or the last slot
(41_decoder.md R103); with `S.cursor >= N` it is a boundary too (10_state.md R23). -/
def CoreState.BoundaryAt {c : Config} (k : CoreState c) (now : Tick c) : Prop :=
  2100 < k.elapsedAt now ∨ c.n ≤ k.cursor.toNat + 1

/-- The frame after the store of an edge at `now`, slot by slot: `pw` in slot `S.cursor`, the old value elsewhere
(44_cycle.md R153, row `frame[i]`). -/
def CoreState.slotAfter {c : Config} (k : CoreState c) (now : Tick c) (i : Nat) (h : i < c.n) : Nat :=
  if i = k.cursor.toNat then k.elapsedAt now % 2 ^ c.pwW else (k.frame[i]'h).toNat

/-- IS_VALID of the frame after the store (42_validity.md R120, R121). -/
def CoreState.ValidAfter {c : Config} (k : CoreState c) (now : Tick c) : Prop :=
  ∀ (i : Nat) (h : i < c.n), i < c.validCount → 1000 ≤ k.slotAfter now i h ∧ k.slotAfter now i h ≤ 2000

/-- "phase 1 fires" (44_cycle.md R153, `W1`): a boundary, a valid frame, CONSUMER = PWM. -/
def CoreState.FiresAt {c : Config} (k : CoreState c) (now : Tick c) : Prop :=
  k.BoundaryAt now ∧ k.ValidAfter now ∧ c.consumer = .pwm

/-- The number `DUTY(v)` is (43_reencoder.md R130). -/
def dutyNumber (c : Config) (v : Nat) : Nat := (v - 1000) * c.maxDuty / 1000

/-! ### One operation -/

/-- The operation completes: exec answers a next state in which only the core may differ, and `P` holds of that core. -/
def RunsTo (i : Instr) (s : State) (P : CoreState s.cfg → Prop) : Prop :=
  ∃ k : CoreState s.cfg, exec i s = .next (s.withCore k) ∧ P k

/-- The operations of a cycle with `rst = 0` and `pwm_reload = 1` (30_encoding.md R72). -/
def servesReload : Instr → Bool
  | .reset => false
  | .idle => false
  | .reload => true
  | .edge _ => false
  | .edgeReload _ => true

/-- The tick count of an EDGE cycle, for the two operations that are one (00_scope.md R12, 30_encoding.md R72). -/
def edgeTick (c : Config) : Instr → Option (Tick c)
  | .reset => none
  | .idle => none
  | .reload => none
  | .edge now => some (BitVec.ofNat c.tickW now)
  | .edgeReload now => some (BitVec.ofNat c.tickW now)

/-! ### Invariant -/

/-- What holds of the core in every cycle after a reset. -/
structure CoreState.Inv {c : Config} (k : CoreState c) : Prop where
  /-- "`FrameCursor` always satisfies `0 ≤ cursor < N`" (41_decoder.md R111). -/
  cursor_lt : k.cursor.toNat < c.n
  /-- `pwm_shadow` is a duty the Re-Encoder computed, or the reset value (43_reencoder.md R142, R146). -/
  shadow_duty : ∃ v, 1000 ≤ v ∧ v ≤ 2000 ∧ k.pwmShadow.toNat = dutyNumber c v
  /-- `pwm_active` is a duty the Re-Encoder computed, or the reset value (43_reencoder.md R142, R146). -/
  active_duty : ∃ v, 1000 ≤ v ∧ v ≤ 2000 ∧ k.pwmActive.toNat = dutyNumber c v
  /-- After a boundary the cursor is 0 (41_decoder.md R104). -/
  done_cursor : k.frameDone = true → k.cursor = 0
  /-- While `frame_done` is 1, `frame_valid` judges the frame on `frame_out` (10_state.md R29, R30). -/
  done_valid : k.frameDone = true → (k.frameValid = true ↔ isValid k.frame = true)
  /-- `commit_req` is 1 only in the cycle after a valid boundary with CONSUMER = PWM (10_state.md R28). -/
  commit_done : k.commitReq = true → k.frameDone = true ∧ k.frameValid = true ∧ c.consumer = .pwm
  /-- A commit that is due is the commit of the throttle slot's duty (43_reencoder.md R133). -/
  commit_duty : k.commitReq = true → k.pwmShadow.toNat = dutyNumber c (memRead k.frame (throttleSlot c)).toNat
  /-- With CONSUMER = LOG the PWM side stays at reset (43_reencoder.md R145). -/
  log_quiet : c.consumer = .log → k.pwmShadow = 0 ∧ k.pwmActive = 0 ∧ k.loadOk = false ∧ k.commitReq = false

/-- The machine's invariant: its core's. -/
def State.Inv (s : State) : Prop := s.core.Inv

/-! ### Runs (44_cycle.md R158) -/

/-- `S_{k+1} = STEP(Cfg, S_k, in_k)` along an input sequence. -/
def runInputs {c : Config} (k : CoreState c) (ins : List (InputVector c)) : CoreState c :=
  ins.foldl (stepFunction c) k

/-- How many cycles of an input sequence are EDGE cycles (00_scope.md R12). -/
def edgeCycles {c : Config} (ins : List (InputVector c)) : Nat :=
  ins.countP fun inp => inp.edgeValid && !inp.rst

/-- No cycle of the sequence is a RESET. -/
def NoReset {c : Config} (ins : List (InputVector c)) : Prop := ∀ inp ∈ ins, inp.rst = false

/-- No cycle of the sequence, run from `k`, is one in which phase 1 fires (44_cycle.md R153, `W1`). -/
def NoneFires {c : Config} (k : CoreState c) : List (InputVector c) → Prop
  | [] => True
  | inp :: rest => ¬ (inp.edgeValid = true ∧ k.FiresAt inp.now) ∧ NoneFires (stepFunction c k inp) rest

/-- The intervals an input sequence without RESET measures, one an EDGE cycle, the first counted from tick `t`
(40_timestamp.md R91, 41_decoder.md R101). -/
def intervals {c : Config} (t : Tick c) : List (InputVector c) → List Nat
  | [] => []
  | inp :: rest =>
    if inp.edgeValid then (inp.now.toNat + 2 ^ c.tickW - t.toNat) % 2 ^ c.tickW :: intervals inp.now rest
    else intervals t rest

/-- The core under another consumer variant, the PWM side at its reset values and every decoder field kept
(43_reencoder.md R145). -/
def CoreState.quietWith {c : Config} (k : CoreState c) (v : Consumer) : CoreState (c.withConsumer v) where
  frame := k.frame
  cursor := k.cursor
  lastEdge := k.lastEdge
  pwmShadow := 0
  pwmActive := 0
  loadOk := false
  commitReq := false
  frameDone := k.frameDone
  frameValid := k.frameValid

end Sys2Proof.Machine
end

