-- ==== Sys2Proof/Certificates/Slice0/Obligations.lean ====
section
/-! DEFINITION. The statements for the provers. -/

open Sys2Proof Sys2Proof.Machine

/-! ### Encoding -/

/-- 30_encoding.md R71, R72, R77: the decoder gives back every well-formed instruction from its canonical word, with
every operand the field `now` admits, at every width. -/
def Obligations.DecodeEncodeRoundTrip : Prop :=
  ∀ (c : Config) (i : Instr), i.WellFormed c → decode c (encode c i) = i

/-- 30_encoding.md R72: "The canonical encoding of an operation sets every ignored bit to 0". Decoding a word and
encoding the result clears exactly the bits the word's operation ignores: with `rst = 1` every other bit; with an edge
none, the word comes back whole; in the other words the field `now`. -/
def Obligations.EncodeDecodeClearsIgnoredBits : Prop :=
  ∀ (c : Config) (w : InputWord c),
    (rstBit c w = true → (encode c (decode c w)).toNat = w.toNat &&& 2 ^ (c.tickW + 2)) ∧
    (rstBit c w = false → edgeValidBit c w = true → encode c (decode c w) = w) ∧
    (rstBit c w = false → edgeValidBit c w = false →
      (encode c (decode c w)).toNat = w.toNat &&& 7 * 2 ^ c.tickW)

/-- 30_encoding.md R72: the opcode map, match and mask for a general `TICK_W`, and the canonical words. -/
def Obligations.OpcodeMapMatchesMasks : Prop :=
  ∀ (c : Config),
    (∀ w : InputWord c,
      (decode c w = .reset ↔ w.toNat &&& 2 ^ (c.tickW + 2) = 2 ^ (c.tickW + 2)) ∧
      (decode c w = .idle ↔ w.toNat &&& 7 * 2 ^ c.tickW = 0) ∧
      (decode c w = .reload ↔ w.toNat &&& 7 * 2 ^ c.tickW = 2 ^ c.tickW) ∧
      (decode c w = .edge (w.toNat % 2 ^ c.tickW) ↔ w.toNat &&& 7 * 2 ^ c.tickW = 2 ^ (c.tickW + 1)) ∧
      (decode c w = .edgeReload (w.toNat % 2 ^ c.tickW) ↔ w.toNat &&& 7 * 2 ^ c.tickW = 3 * 2 ^ c.tickW)) ∧
    (encode c .reset).toNat = 2 ^ (c.tickW + 2) ∧ (encode c .idle).toNat = 0 ∧
    (encode c .reload).toNat = 2 ^ c.tickW ∧
    (∀ now, now < 2 ^ c.tickW → (encode c (.edge now)).toNat = 2 ^ (c.tickW + 1) + now) ∧
    (∀ now, now < 2 ^ c.tickW → (encode c (.edgeReload now)).toNat = 3 * 2 ^ c.tickW + now)

/-- 30_encoding.md R75: "Every value of `W` decodes to exactly one of the five operations": one row of the opcode
table matches the word, no other does, and the decoder gives that row's operation. -/
def Obligations.EveryWordMatchesOneRow : Prop :=
  ∀ (c : Config) (w : InputWord c),
    ∃ r ∈ opcodeTable c.tickW, r.matchesWord w.toNat = true ∧ (decode c w).mnemonic = r.mnemonic ∧
      ∀ r' ∈ opcodeTable c.tickW, r'.matchesWord w.toNat = true → r' = r

/-- 30_encoding.md R75: "4 x `2^TICK_W` words decode to RESET, `2^TICK_W` words each to IDLE and RELOAD". -/
def Obligations.RedundantWordCounts : Prop :=
  ∀ (c : Config),
    ((Finset.range (2 ^ (3 + c.tickW))).filter fun n => decode c (BitVec.ofNat _ n) = .reset).card = 4 * 2 ^ c.tickW ∧
    ((Finset.range (2 ^ (3 + c.tickW))).filter fun n => decode c (BitVec.ofNat _ n) = .idle).card = 2 ^ c.tickW ∧
    ((Finset.range (2 ^ (3 + c.tickW))).filter fun n => decode c (BitVec.ofNat _ n) = .reload).card = 2 ^ c.tickW

/-- 30_encoding.md R72, spec/95_test_vectors.md section 2.7: a few words, one at least of each operation (sanity). -/
def Obligations.SampleWordsDecode : Prop :=
  decode Config.ref 0b10000000000000000000000000000000000 = .reset ∧
  decode Config.ref 0b00000000000000000000000000000000000 = .idle ∧
  decode Config.ref 0b00100000000000000000000000000000000 = .reload ∧
  decode Config.ref 0b01000000000000000000001001110001000 = .edge 5000 ∧
  decode Config.ref 0b01100000000000000000110001110011100 = .edgeReload 25500

/-- 30_encoding.md R73, 93_implementation_defined.md U2: in a RESET cycle every other bit, in an IDLE or RELOAD cycle
the field `now`, has no effect on the next state. -/
def Obligations.IgnoredBitsHaveNoEffect : Prop :=
  ∀ (s : State) (w w' : InputWord s.cfg) (rest : List (InputWord s.cfg)),
    (rstBit s.cfg w = true ∧ rstBit s.cfg w' = true ∨
      rstBit s.cfg w = false ∧ rstBit s.cfg w' = false ∧ edgeValidBit s.cfg w = false ∧
        edgeValidBit s.cfg w' = false ∧ pwmReloadBit s.cfg w = pwmReloadBit s.cfg w') →
    step { s with stimulus := w :: rest } = step { s with stimulus := w' :: rest }

/-! ### One step -/

/-- 00_scope.md R8, 30_encoding.md R70: a step is the operation of the word the environment drives. The word is the
next one of the script, past its end a free one (log 1); the script and the cycle counter advance around exec. -/
def Obligations.StepRunsDrivenWord : Prop :=
  (∀ (s : State) (w : InputWord s.cfg) (rest : List (InputWord s.cfg)), s.stimulus = w :: rest →
    step s = exec (decode s.cfg w) { s with stimulus := rest, cycle := s.cycle + 1 }) ∧
  (∀ s : State, s.stimulus = [] →
    step s = exec (decode s.cfg (Config.freeInput (3 + s.cfg.tickW) s.cycle)) { s with cycle := s.cycle + 1 })

/-- Logs 1 and 8 (the model's interface): the very next step after withFetchWord runs the word placed, in the state it
was placed in, one clock cycle counted. For a REF machine that is the instruction decodeTableWord reads. -/
def Obligations.FetchWordRunsNext : Prop :=
  (∀ (s : State) (w : InputWord s.cfg),
    step (s.withFetchWord (3 + s.cfg.tickW) w.toNat) = exec (decode s.cfg w) { s with cycle := s.cycle + 1 }) ∧
  (∀ (nbits w : Nat) (i : Instr), decodeTableWord nbits w = some i →
    step (State.reset.withFetchWord nbits w) = exec i { State.reset with cycle := 1 })

/-- 60_exceptions.md R172: "Every input vector in every state has a defined next state": no step faults or is refused,
and the configuration is kept (20_memory.md R60). -/
def Obligations.StepAlwaysHasNextState : Prop :=
  ∀ s : State, ∃ t : State, step s = .next t ∧ t.cfg = s.cfg

/-- 44_cycle.md R155: the operation a word decodes to does `STEP(Cfg, S, in)`, the whole next-state function as the
spec's pseudocode writes it in integers, for every configuration, every state and every word. -/
def Obligations.ExecRefinesSpecPseudocode : Prop :=
  ∀ (s : State) (w : InputWord s.cfg),
    exec (decode s.cfg w) s = .next (s.withCore (stepFunction s.cfg s.core (inputOf s.cfg w)))

/-- 44_cycle.md R155, 00_scope.md R8: one step of the machine is `STEP(Cfg, S, in)` with `in` the word driven in it.
Where that word comes from (the script's head, past its end the free word of the cycle), that the script loses its head
and that the cycle counter rises by one are the model's choice: log 1. -/
def Obligations.StepRefinesSpecPseudocode : Prop :=
  ∀ s : State,
    step s = .next ((advance s).withCore (stepFunction s.cfg s.core (inputOf s.cfg (drivenWord s))))

/-- 44_cycle.md R153 (the spec's own inference from R101 to R105, R133 to R137): the next-state equations, one per
field, hold of the pseudocode of R155 in every cycle with `rst = 0`. -/
def Obligations.PseudocodeMeetsFieldEquations : Prop :=
  ∀ (c : Config) (s : CoreState c) (inp : InputVector c), inp.rst = false →
    let s' := stepFunction c s inp
    let fires := inp.edgeValid = true ∧ s.FiresAt inp.now
    (s'.lastEdge = if inp.edgeValid then inp.now else s.lastEdge) ∧
    (∀ (i : Nat) (h : i < c.n), (s'.frame[i]).toNat =
      if inp.edgeValid then s.slotAfter inp.now i h else (s.frame[i]).toNat) ∧
    (inp.edgeValid = false → s'.cursor = s.cursor) ∧
    (inp.edgeValid = true → s.BoundaryAt inp.now → s'.cursor = 0) ∧
    (inp.edgeValid = true → ¬ s.BoundaryAt inp.now → s'.cursor.toNat = s.cursor.toNat + 1) ∧
    (s'.frameDone = true ↔ inp.edgeValid = true ∧ s.BoundaryAt inp.now) ∧
    (inp.edgeValid = true ∧ s.BoundaryAt inp.now → (s'.frameValid = true ↔ s.ValidAfter inp.now)) ∧
    (¬ (inp.edgeValid = true ∧ s.BoundaryAt inp.now) → s'.frameValid = s.frameValid) ∧
    (fires → s'.pwmShadow.toNat = dutyNumber c (s.slotAfter inp.now c.throttleIdx c.throttleIdx_lt_n)) ∧
    (¬ fires → s'.pwmShadow = s.pwmShadow) ∧
    (s'.commitReq = true ↔ fires) ∧
    (s'.loadOk = if s.commitReq then true else if inp.pwmReload then false else s.loadOk) ∧
    (s'.pwmActive = if inp.pwmReload && s.loadOk then s.pwmShadow else s.pwmActive)

/-! ### The operations -/

/-- 44_cycle.md R150, 10_state.md R33: a RESET cycle puts every field at its reset value whatever the state was, so no
edge is captured, no reload served and a pending commit dropped; and every word with `rst = 1` is RESET. -/
def Obligations.ResetCycleClearsEveryField : Prop :=
  (∀ s : State, RunsTo .reset s fun k =>
    (∀ (i : Nat) (h : i < s.cfg.n), k.frame[i] = 0) ∧ k.cursor = 0 ∧ k.lastEdge = 0 ∧ k.pwmShadow = 0 ∧
    k.pwmActive = 0 ∧ k.loadOk = false ∧ k.commitReq = false ∧ k.frameDone = false ∧ k.frameValid = false) ∧
  (∀ (c : Config) (w : InputWord c), rstBit c w = true → decode c w = .reset)

/-- 44_cycle.md R151: an IDLE cycle runs the commit phase, clears `frame_done` and keeps every other field; with
`commit_req = 0` and `frame_done = 0` it leaves the state unchanged. -/
def Obligations.IdleCycleResult : Prop :=
  ∀ s : State, RunsTo .idle s fun k =>
    k.frame = s.core.frame ∧ k.cursor = s.core.cursor ∧ k.lastEdge = s.core.lastEdge ∧
    k.pwmShadow = s.core.pwmShadow ∧ k.pwmActive = s.core.pwmActive ∧ k.frameValid = s.core.frameValid ∧
    k.frameDone = false ∧ k.commitReq = false ∧
    (s.core.commitReq = true → k.loadOk = true) ∧ (s.core.commitReq = false → k.loadOk = s.core.loadOk) ∧
    (s.core.commitReq = false → s.core.frameDone = false → k = s.core)

/-- 43_reencoder.md R135: a RELOAD cycle promotes if `load_ok` was 1, clears `load_ok` unless a commit arrives, runs
the commit phase, clears `frame_done` and touches nothing else; with nothing pending it changes nothing but
`frame_done`. -/
def Obligations.ReloadCycleResult : Prop :=
  ∀ s : State, RunsTo .reload s fun k =>
    k.frame = s.core.frame ∧ k.cursor = s.core.cursor ∧ k.lastEdge = s.core.lastEdge ∧
    k.pwmShadow = s.core.pwmShadow ∧ k.frameValid = s.core.frameValid ∧
    k.frameDone = false ∧ k.commitReq = false ∧
    (s.core.loadOk = true → k.pwmActive = s.core.pwmShadow) ∧
    (s.core.loadOk = false → k.pwmActive = s.core.pwmActive) ∧
    (s.core.commitReq = true → k.loadOk = true) ∧ (s.core.commitReq = false → k.loadOk = false) ∧
    (s.core.loadOk = false → s.core.commitReq = false → k = { s.core with frameDone := false })

/-- 41_decoder.md R101 to R104, with R133 and R134: one EDGE cycle, field by field, for every operand and every state
(`S.cursor >= N` among them, where nothing is stored and the cycle is a boundary). -/
def Obligations.EdgeCycleResult : Prop :=
  ∀ (s : State) (now : Tick s.cfg), RunsTo (.edge now.toNat) s fun k =>
    k.lastEdge = now ∧
    (∀ (i : Nat) (h : i < s.cfg.n), (k.frame[i]).toNat = s.core.slotAfter now i h) ∧
    (¬ s.core.BoundaryAt now →
      k.cursor.toNat = s.core.cursor.toNat + 1 ∧ k.frameDone = false ∧ k.frameValid = s.core.frameValid) ∧
    (s.core.BoundaryAt now →
      k.cursor = 0 ∧ k.frameDone = true ∧ (k.frameValid = true ↔ s.core.ValidAfter now)) ∧
    (s.core.FiresAt now → k.commitReq = true ∧
      k.pwmShadow.toNat = dutyNumber s.cfg (s.core.slotAfter now s.cfg.throttleIdx s.cfg.throttleIdx_lt_n)) ∧
    (¬ s.core.FiresAt now → k.commitReq = false ∧ k.pwmShadow = s.core.pwmShadow) ∧
    k.pwmActive = s.core.pwmActive ∧ k.loadOk = (s.core.commitReq || s.core.loadOk)

/-- 44_cycle.md R152: EDGE_RELOAD is "exactly the union of EDGE ... and RELOAD ..., both reading the state before the
cycle": the PWM side's `pwm_active` and `load_ok` are RELOAD's, every other field is EDGE's. -/
def Obligations.EdgeReloadIsUnion : Prop :=
  ∀ (s : State) (now : Tick s.cfg), RunsTo (.edgeReload now.toNat) s fun k =>
    ∃ ke kr : CoreState s.cfg, exec (.edge now.toNat) s = .next (s.withCore ke) ∧
      exec .reload s = .next (s.withCore kr) ∧
      k = { ke with pwmActive := kr.pwmActive, loadOk := kr.loadOk }

/-- 10_state.md R37: a field is written only by the operations in its row; every other operation leaves it unchanged.
The frame statement of all five operations. -/
def Obligations.WriteOwnership : Prop :=
  ∀ (s : State) (i : Instr), i.WellFormed s.cfg → RunsTo i s fun k => i ≠ .reset →
    (edgeTick s.cfg i = none →
      k.frame = s.core.frame ∧ k.cursor = s.core.cursor ∧ k.lastEdge = s.core.lastEdge ∧
      k.frameValid = s.core.frameValid ∧ k.pwmShadow = s.core.pwmShadow) ∧
    (∀ (j : Nat) (h : j < s.cfg.n), j ≠ s.core.cursor.toNat → k.frame[j] = s.core.frame[j]) ∧
    (∀ now, edgeTick s.cfg i = some now →
      (¬ s.core.BoundaryAt now → k.frameValid = s.core.frameValid) ∧
      (¬ s.core.FiresAt now → k.pwmShadow = s.core.pwmShadow)) ∧
    (servesReload i = false ∨ s.core.loadOk = false → k.pwmActive = s.core.pwmActive) ∧
    (servesReload i = false → s.core.commitReq = false → k.loadOk = s.core.loadOk)

/-- 43_reencoder.md R136: promotion, in every operation but RESET, reads `load_ok` and `pwm_shadow` as they were
before the cycle, and is the only way `pwm_active` changes. -/
def Obligations.PromotionLaw : Prop :=
  ∀ (s : State) (i : Instr), i.WellFormed s.cfg → i ≠ .reset → RunsTo i s fun k =>
    (servesReload i = true ∧ s.core.loadOk = true → k.pwmActive = s.core.pwmShadow) ∧
    (¬ (servesReload i = true ∧ s.core.loadOk = true) → k.pwmActive = s.core.pwmActive)

/-- 43_reencoder.md R140: the closed form of `load_ok` in every operation but RESET; and a commit that meets a reload
is served by the next reload, never lost: in RELOAD and in EDGE_RELOAD, which may stage a newer duty. -/
def Obligations.CommitBeatsReloadClear : Prop :=
  (∀ (s : State) (i : Instr), i.WellFormed s.cfg → i ≠ .reset → RunsTo i s fun k =>
    (s.core.commitReq = true → k.loadOk = true) ∧
    (s.core.commitReq = false → servesReload i = true → k.loadOk = false) ∧
    (s.core.commitReq = false → servesReload i = false → k.loadOk = s.core.loadOk)) ∧
  (∀ (s : State) (i : Instr), i.WellFormed s.cfg → servesReload i = true →
    s.core.commitReq = true → s.core.loadOk = false → RunsTo i s fun k =>
      k.pwmActive = s.core.pwmActive ∧ k.loadOk = true ∧
      RunsTo .reload (s.withCore k) fun k2 => k2.pwmActive = k.pwmShadow ∧ k2.loadOk = k.commitReq)

/-- 43_reencoder.md R133, R134: phase 1 fires in both edge operations, writes `pwm_shadow` and `commit_req`, and
touches neither `pwm_active` nor `load_ok`; phase 2 runs in every operation but RESET, sets `load_ok`, and clears
`commit_req` unless phase 1 sets it in the same cycle. -/
def Obligations.TwoPhaseWrite : Prop :=
  ∀ (s : State) (i : Instr), i.WellFormed s.cfg → i ≠ .reset → RunsTo i s fun k =>
    (∀ now, edgeTick s.cfg i = some now → s.core.FiresAt now →
      k.commitReq = true ∧
      k.pwmShadow.toNat = dutyNumber s.cfg (s.core.slotAfter now s.cfg.throttleIdx s.cfg.throttleIdx_lt_n)) ∧
    ((∀ now, edgeTick s.cfg i = some now → ¬ s.core.FiresAt now) →
      k.commitReq = false ∧ k.pwmShadow = s.core.pwmShadow) ∧
    (s.core.commitReq = true → k.loadOk = true) ∧
    (servesReload i = false → k.pwmActive = s.core.pwmActive ∧ (s.core.commitReq = false → k.loadOk = s.core.loadOk)) ∧
    (servesReload i = true →
      (s.core.loadOk = true → k.pwmActive = s.core.pwmShadow) ∧
      (s.core.loadOk = false → k.pwmActive = s.core.pwmActive) ∧ (s.core.commitReq = false → k.loadOk = false))

/-- 43_reencoder.md R141: a shadow write lands while an earlier commit is pending; the pending commit covers the newer
value at the next reload, and a further commit follows one cycle later. -/
def Obligations.ShadowWriteWhilePending : Prop :=
  ∀ (s : State) (now : Tick s.cfg), s.core.loadOk = true → s.core.FiresAt now →
    RunsTo (.edge now.toNat) s fun k =>
      k.pwmShadow.toNat = dutyNumber s.cfg (s.core.slotAfter now s.cfg.throttleIdx s.cfg.throttleIdx_lt_n) ∧
      k.loadOk = true ∧ k.commitReq = true ∧ k.pwmActive = s.core.pwmActive ∧
      RunsTo .reload (s.withCore k) fun k2 => k2.pwmActive = k.pwmShadow ∧ k2.loadOk = true

/-- 43_reencoder.md R145: with CONSUMER = LOG the PWM registers keep their reset value, and the Decoder, the Validity
Filter and the flags `frame_done`, `frame_valid` behave exactly as with the other variant, in every operation; and
RELOAD changes nothing but `frame_done`. -/
def Obligations.LogConsumerDecodesAlike : Prop :=
  ∀ (s : State) (i : Instr), i.WellFormed s.cfg →
    let t : State := { cfg := s.cfg.withConsumer .log, core := s.core.quietWith .log, stimulus := [], cycle := 0 }
    (∃ k : CoreState s.cfg, exec i s = .next (s.withCore k) ∧ exec i t = .next (t.withCore (k.quietWith .log))) ∧
    exec .reload t = .next (t.withCore { t.core with frameDone := false })

/-! ### ELAPSED, IS_VALID, DUTY, the outputs -/

/-- 40_timestamp.md R91: ELAPSED is subtraction modulo `2^TICK_W`, with its corner cases and worked example. -/
def Obligations.ElapsedIsModular : Prop :=
  (∀ (c : Config) (now last : Tick c),
    (elapsed now last).toNat = (now.toNat + 2 ^ c.tickW - last.toNat) % 2 ^ c.tickW ∧
    (last.toNat ≤ now.toNat → (elapsed now last).toNat = now.toNat - last.toNat) ∧
    (now.toNat < last.toNat → (elapsed now last).toNat = now.toNat + 2 ^ c.tickW - last.toNat) ∧
    elapsed now now = 0 ∧ elapsed now 0 = now ∧ elapsed (0 : Tick c) (BitVec.ofNat _ (2 ^ c.tickW - 1)) = 1) ∧
  elapsed (c := Config.ref) 904 4294966800 = 1400

/-- 40_timestamp.md R92 (the spec's own inference), 41_decoder.md R102: an edge a true `d < 2^TICK_W` ticks after the
last one stores `d mod 2^PW_W` in the slot the cursor selects, whether or not the counter wrapped in between. -/
def Obligations.IntervalStoredAcrossWrap : Prop :=
  ∀ (s : State) (d : Nat) (h : s.core.cursor.toNat < s.cfg.n), d < 2 ^ s.cfg.tickW →
    RunsTo (.edge ((s.core.lastEdge.toNat + d) % 2 ^ s.cfg.tickW)) s fun k =>
      (k.frame[s.core.cursor.toNat]).toNat = d % 2 ^ s.cfg.pwW ∧
      (2100 < d → k.frameDone = true) ∧
      (d ≤ 2100 → s.core.cursor.toNat + 1 < s.cfg.n → k.frameDone = false)

/-- 42_validity.md R120: IS_VALID is the range check of the leading VALID_COUNT slots, both bounds inclusive; the
slots from VALID_COUNT on never affect it. -/
def Obligations.ValidityChecksLeadingSlots : Prop :=
  ∀ (c : Config) (f : Frame c),
    (isValid f = true ↔ ∀ (i : Nat) (h : i < c.n), i < c.validCount → 1000 ≤ (f[i]).toNat ∧ (f[i]).toNat ≤ 2000) ∧
    (∀ (j : Nat) (h : j < c.n) (v : Slot c), c.validCount ≤ j → isValid (f.set j v) = isValid f)

/-- 43_reencoder.md R131: linearity of DUTY within the tolerance `0 <= exact - DUTY(v) < 1`, its end points, its
middle, and that it is non-decreasing. -/
def Obligations.DutyIsLinear : Prop :=
  ∀ (c : Config) (v : Slot c) (h : 1000 ≤ v.toNat ∧ v.toNat ≤ 2000),
    (duty v h).toNat * 1000 ≤ (v.toNat - 1000) * c.maxDuty ∧
    (v.toNat - 1000) * c.maxDuty < ((duty v h).toNat + 1) * 1000 ∧
    (v.toNat = 1000 → (duty v h).toNat = c.minDuty) ∧
    (v.toNat = 2000 → (duty v h).toNat = c.maxDuty) ∧
    (v.toNat = 1500 → (duty v h).toNat = c.maxDuty / 2) ∧
    (∀ (u : Slot c) (hu : 1000 ≤ u.toNat ∧ u.toNat ≤ 2000), u.toNat ≤ v.toNat → (duty u hu).toNat ≤ (duty v h).toNat)

/-- 10_state.md R36, 20_memory.md R52: every output is a view of a state field, and slot `i` is bits
`(i+1)*PW_W - 1 : i*PW_W` of `frame_out`; `last_edge` and `commit_req` have no output. -/
def Obligations.OutputsViewStateFields : Prop :=
  ∀ (c : Config) (k : CoreState c),
    (outputs k).dutyActive = k.pwmActive ∧ (outputs k).dutyShadow = k.pwmShadow ∧ (outputs k).loadOk = k.loadOk ∧
    (outputs k).cursorOut = k.cursor ∧ (outputs k).frameDone = k.frameDone ∧ (outputs k).frameValid = k.frameValid ∧
    (∀ (i : Nat) (h : i < c.n), (outputs k).frameOut.extractLsb' (i * c.pwW) c.pwW = k.frame[i]) ∧
    (∀ (t : Tick c) (b : Bool), outputs { k with lastEdge := t, commitReq := b } = outputs k)

/-! ### Corner cases of the decoder -/

/-- 41_decoder.md R106, both cases, from the reset state (the slot's value is `now mod 2^PW_W` in both: R102, log 11). -/
def Obligations.FirstEdgeAfterReset : Prop :=
  ∀ (s : State) (now : Tick s.cfg), s.core = CoreState.reset s.cfg → RunsTo (.edge now.toNat) s fun k =>
    (k.frame[0]'(Nat.lt_of_lt_of_le Nat.zero_lt_two s.cfg.two_le_n)).toNat = now.toNat % 2 ^ s.cfg.pwW ∧
    (∀ (i : Nat) (h : i < s.cfg.n), i ≠ 0 → k.frame[i] = 0) ∧ k.lastEdge = now ∧
    k.pwmActive = 0 ∧ k.loadOk = false ∧
    (2100 < now.toNat → k.frameDone = true ∧ k.cursor = 0 ∧
      (2 ≤ s.cfg.validCount → k.frameValid = false ∧ k.pwmShadow = 0 ∧ k.commitReq = false)) ∧
    (now.toNat ≤ 2100 → k.frameDone = false ∧ k.cursor.toNat = 1 ∧ k.pwmShadow = 0 ∧ k.commitReq = false)

/-- 41_decoder.md R110 (the spec's own inference): with slots as wide as ticks, a frame ended by a gap on a validated
slot is invalid and moves no duty; and with VALID_COUNT = N - 1 only a boundary taken with `S.cursor = N - 1` is
valid. -/
def Obligations.ShortFrameIsInvalid : Prop :=
  ∀ (s : State) (now : Tick s.cfg), s.cfg.pwW = s.cfg.tickW → s.core.cursor.toNat < s.cfg.n →
    RunsTo (.edge now.toNat) s fun k =>
      (2100 < s.core.elapsedAt now → s.core.cursor.toNat < s.cfg.validCount →
        k.frameDone = true ∧ k.frameValid = false ∧ k.pwmShadow = s.core.pwmShadow ∧ k.commitReq = false) ∧
      (s.cfg.validCount = s.cfg.n - 1 → k.frameDone = true → k.frameValid = true →
        s.core.cursor.toNat = s.cfg.n - 1)

/-- 70_reset_and_hazards.md R198 (the spec's own inference), 42_validity.md R125: an interval of `2^PW_W` ticks or more
(so slots are narrower than ticks) whose low `PW_W` bits are in range ends a short frame as a valid one on the strength
of the stale slots, and the duty staged is that of slot THROTTLE_IDX, "which may be fresh or stale". -/
def Obligations.NarrowSlotAcceptsAliasedGap : Prop :=
  ∀ (s : State) (e : Nat), 2 ^ s.cfg.pwW ≤ e → e < 2 ^ s.cfg.tickW →
    1000 ≤ e % 2 ^ s.cfg.pwW → e % 2 ^ s.cfg.pwW ≤ 2000 → s.core.cursor.toNat < s.cfg.validCount →
    (∀ (i : Nat) (h : i < s.cfg.n), i < s.cfg.validCount → i ≠ s.core.cursor.toNat →
      1000 ≤ (s.core.frame[i]).toNat ∧ (s.core.frame[i]).toNat ≤ 2000) →
    RunsTo (.edge ((s.core.lastEdge.toNat + e) % 2 ^ s.cfg.tickW)) s fun k =>
      k.frameDone = true ∧ k.frameValid = true ∧ k.cursor = 0 ∧
      (∀ (i : Nat) (h : i < s.cfg.n), (k.frame[i]).toNat =
        if i = s.core.cursor.toNat then e % 2 ^ s.cfg.pwW else (s.core.frame[i]).toNat) ∧
      (s.cfg.consumer = .pwm → k.commitReq = true ∧
        k.pwmShadow.toNat = dutyNumber s.cfg (k.frame[s.cfg.throttleIdx]'s.cfg.throttleIdx_lt_n).toNat) ∧
      (s.cfg.consumer = .log → k.commitReq = false ∧ k.pwmShadow = s.core.pwmShadow)

/-- 70_reset_and_hazards.md R196: "Holding `edge_valid` high for two cycles is two edges; the second has `elapsed = 0`
if `now` did not change". -/
def Obligations.HeldStrobeIsTwoEdges : Prop :=
  ∀ (s : State) (now : Tick s.cfg), s.core.cursor.toNat < s.cfg.n →
    RunsTo (.edge now.toNat) s fun k => ∃ h : k.cursor.toNat < s.cfg.n,
      RunsTo (.edge now.toNat) (s.withCore k) fun k2 =>
        k2.frame[k.cursor.toNat] = 0 ∧ (k.cursor.toNat + 1 < s.cfg.n → k2.cursor.toNat = k.cursor.toNat + 1)

/-! ### The invariant -/

/-- 10_state.md R33, 00_scope.md R7: the reset state of every configuration meets the invariant; State.reset is that
of REF with an empty script (logs 1 and 2: the model's choice). -/
def Obligations.ResetMeetsInvariant : Prop :=
  (∀ c : Config, (State.resetWith c).Inv) ∧ State.reset = State.resetWith Config.ref ∧
    State.reset.stimulus = [] ∧ State.reset.cycle = 0

/-- 41_decoder.md R111, 43_reencoder.md R142, R145, R146, 10_state.md R28 to R30: the cursor below N, both duty
registers holding duties of in-range pulses, the flags' agreement: kept by every step from every state that meets it. -/
def Obligations.StepKeepsInvariant : Prop :=
  ∀ s t : State, s.Inv → step s = .next t → t.Inv

/-- 41_decoder.md R111: "For all sequences of edge timestamps, `FrameCursor` always satisfies `0 ≤ cursor < N`", along
every input sequence; and one EDGE cycle brings any cursor below N. -/
def Obligations.CursorStaysBelowCapacity : Prop :=
  (∀ (c : Config) (k : CoreState c) (ins : List (InputVector c)), k.cursor.toNat < c.n →
    (runInputs k ins).cursor.toNat < c.n) ∧
  (∀ (s : State) (now : Tick s.cfg), RunsTo (.edge now.toNat) s fun k => k.cursor.toNat < s.cfg.n)

/-! ### Runs -/

/-- 44_cycle.md R158: a run of the machine over a script is the iteration of STEP over the script's words; the script
is consumed and the clock cycles are counted. -/
def Obligations.MachineRunIteratesStep : Prop :=
  ∀ (s : State) (ws rest : List (InputWord s.cfg)),
    Host.Core.run core ws.length { s with stimulus := ws ++ rest } =
      .next { s with
        core := runInputs s.core (ws.map (inputOf s.cfg))
        stimulus := rest
        cycle := s.cycle + ws.length }

/-- 44_cycle.md R158, 93_implementation_defined.md U1: a run that begins with a RESET cycle does not depend on the
state before it, and from there on it is the run from the reset state. -/
def Obligations.ResetForgetsHistory : Prop :=
  ∀ (c : Config) (k : CoreState c) (before after : List (InputVector c)) (inp : InputVector c), inp.rst = true →
    runInputs k (before ++ inp :: after) = runInputs (CoreState.reset c) after

/-- 20_memory.md R61 (the spec's own inference): a completed frame, and every decoder register, stays intact until the
next EDGE cycle. -/
def Obligations.FrameIntactBetweenEdges : Prop :=
  ∀ (c : Config) (k : CoreState c) (ins : List (InputVector c)),
    NoReset ins → edgeCycles ins = 0 →
    (runInputs k ins).frame = k.frame ∧ (runInputs k ins).cursor = k.cursor ∧
    (runInputs k ins).lastEdge = k.lastEdge ∧ (runInputs k ins).frameValid = k.frameValid ∧
    (runInputs k ins).pwmShadow = k.pwmShadow

/-- 41_decoder.md R107, R112 (the spec's own inference "Between two boundaries at most `N` EDGE cycles occur"): a
sequence without RESET that has N EDGE cycles has a frame boundary in it, gap or no gap, from every state. -/
def Obligations.BoundaryWithinCapacityEdges : Prop :=
  ∀ (c : Config) (k : CoreState c) (ins : List (InputVector c)), NoReset ins → c.n ≤ edgeCycles ins →
    ∃ m, 0 < m ∧ m ≤ ins.length ∧ (runInputs k (ins.take m)).frameDone = true

/-- spec/95_test_vectors.md S1 and S3 (Scenarios A and C), 41_decoder.md R101 to R104, 42_validity.md R122,
43_reencoder.md R133: from a cursor of 0, a sequence with N EDGE cycles, the last cycle one of them, whose validated
intervals are in range and none of whose first N - 1 is a gap, completes a valid frame that holds the intervals in order
and stages the duty of the throttle interval; whatever cycles stand between the edges, for every VALID_COUNT, and (where
VALID_COUNT < N) whatever the last interval is. -/
def Obligations.WellFormedFrameIsDecoded : Prop :=
  ∀ (c : Config) (k : CoreState c) (ins : List (InputVector c)) (last : InputVector c),
    k.cursor = 0 → NoReset (ins ++ [last]) → last.edgeValid = true →
    let ds := intervals k.lastEdge (ins ++ [last])
    ∀ hlen : ds.length = c.n,
      (∀ (i : Nat) (h : i < ds.length), i < c.validCount → 1000 ≤ ds[i] ∧ ds[i] ≤ 2000) →
      (∀ (i : Nat) (h : i < ds.length), i + 1 < c.n → ds[i] ≤ 2100) →
      let k' := runInputs k (ins ++ [last])
      (∀ (i : Nat) (h : i < c.n), (k'.frame[i]).toNat = ds[i] % 2 ^ c.pwW) ∧
      k'.cursor = 0 ∧ k'.frameDone = true ∧ k'.frameValid = true ∧
      (c.consumer = .pwm → k'.commitReq = true ∧
        k'.pwmShadow.toNat = dutyNumber c (ds[c.throttleIdx]'(hlen ▸ c.throttleIdx_lt_n)))

/-- 43_reencoder.md R143, 20_memory.md R57 (the spec's own inferences from R133, R134, R136): from a valid boundary
with no commit pending or in flight, the new duty is not in force before the first reload at least two cycles later,
and is in force right after it, whatever the cycles between are, unless one of them stages a newer duty. -/
def Obligations.DutyInForceAtFirstReloadAfterCommit : Prop :=
  ∀ (c : Config) (k : CoreState c) (first second last : InputVector c) (mid : List (InputVector c)),
    k.loadOk = false → k.commitReq = false →
    first.rst = false → first.edgeValid = true → k.FiresAt first.now →
    NoReset (second :: mid) → (∀ inp ∈ mid, inp.pwmReload = false) →
    NoneFires (stepFunction c k first) (second :: mid) →
    last.rst = false → last.pwmReload = true →
    let waiting := runInputs k (first :: second :: mid)
    let after := runInputs k (first :: second :: mid ++ [last])
    waiting.pwmActive = k.pwmActive ∧ waiting.loadOk = true ∧
    after.pwmActive.toNat = dutyNumber c (k.slotAfter first.now c.throttleIdx c.throttleIdx_lt_n)

/-- 43_reencoder.md R144 (the spec's own inference), R139: a sequence without RESET in which no validated frame is
consumed, whatever noise it holds, changes no staged duty, puts no duty in force but one already staged, and nothing
at all where no commit was pending or in flight. -/
def Obligations.IdempotentUnderNoise : Prop :=
  ∀ (c : Config) (k : CoreState c) (ins : List (InputVector c)), NoReset ins → NoneFires k ins →
    (runInputs k ins).pwmShadow = k.pwmShadow ∧
    ((runInputs k ins).pwmActive = k.pwmActive ∨ (runInputs k ins).pwmActive = k.pwmShadow) ∧
    (k.loadOk = false → k.commitReq = false →
      (runInputs k ins).pwmActive = k.pwmActive ∧ (runInputs k ins).loadOk = false ∧
      (runInputs k ins).commitReq = false)

/-- 70_reset_and_hazards.md R192 (the spec's own inference): after a reset no duty but 0 is staged or in force in any
input sequence with fewer than VALID_COUNT EDGE cycles. -/
def Obligations.NoDutyBeforeEnoughEdges : Prop :=
  ∀ (c : Config) (ins : List (InputVector c)), edgeCycles ins < c.validCount →
    (runInputs (CoreState.reset c) ins).pwmShadow = 0 ∧ (runInputs (CoreState.reset c) ins).pwmActive = 0

/-- 30_encoding.md R78 (the spec's own inference): in a script that begins with RESET the assembler's variable `t` is
the core's `last_edge` before every statement, so that `PULSE d` makes an interval of exactly `d`. -/
def Obligations.AssemblerTracksLastEdge : Prop :=
  ∀ (c : Config) (k : CoreState c) (script : List Statement),
    let k' := runInputs k ((assemble c (.op .reset :: script)).map (inputOf c))
    k'.lastEdge = tickAtEnd c 0 (.op .reset :: script) ∧
    ∀ d, d < 2 ^ c.tickW → k'.elapsedAt (tickAtEnd c 0 (.op .reset :: script) + BitVec.ofNat c.tickW d) = d
end

