-- ==== Sys2Proof/Laws/Decode.lean ====
section
/-! SUPPORT. The fields of a word that is an opcode field above a tick count (30_encoding.md R71). -/

namespace Sys2Proof

variable {c : Config}

theorem rstBit_append (op : Op) (now : Tick c) : rstBit c (op ++ now) = op.getLsbD 2 := by
  simp [rstBit, BitVec.getLsbD_append]

theorem edgeValidBit_append (op : Op) (now : Tick c) : edgeValidBit c (op ++ now) = op.getLsbD 1 := by
  simp [edgeValidBit, BitVec.getLsbD_append]

theorem pwmReloadBit_append (op : Op) (now : Tick c) : pwmReloadBit c (op ++ now) = op.getLsbD 0 := by
  rw [pwmReloadBit, BitVec.getLsbD_append, if_neg (Nat.lt_irrefl _), Nat.sub_self]

theorem nowField_append (op : Op) (now : Tick c) : nowField c (op ++ now) = now := by
  apply BitVec.eq_of_getLsbD_eq
  intro i hi
  simp only [nowField, BitVec.getLsbD_extractLsb', BitVec.getLsbD_append]
  simp [hi]

/-- The op field of a word. -/
theorem word_eq_append (w : InputWord c) : w = w.extractLsb' c.tickW 3 ++ nowField c w := by
  apply BitVec.eq_of_getLsbD_eq
  intro i hi
  simp only [nowField, BitVec.getLsbD_append, BitVec.getLsbD_extractLsb']
  by_cases h : i < c.tickW
  · simp [h]
  · have h3 : i - c.tickW < 3 := by omega
    have he : c.tickW + (i - c.tickW) = i := by omega
    simp [h, h3, he]

/-- A word as a number: the op field above the tick count. -/
theorem toNat_append (op : Op) (now : Tick c) : (op ++ now).toNat = op.toNat * 2 ^ c.tickW + now.toNat := by
  rw [BitVec.toNat_append, ← Nat.shiftLeft_add_eq_or_of_lt now.isLt, Nat.shiftLeft_eq]

end Sys2Proof
end

