-- ==== Sys2Proof/Laws/State.lean ====
section
/-! SUPPORT. One lemma per field per update, each true by `rfl`: later proofs rewrite with these and unfold no record
update. -/

namespace Sys2Proof.Machine

/-! ### The machine's own updates -/

@[simp] theorem withCore_cfg (s : State) (k : CoreState s.cfg) : (s.withCore k).cfg = s.cfg := rfl
@[simp] theorem withCore_core (s : State) (k : CoreState s.cfg) : (s.withCore k).core = k := rfl
@[simp] theorem withCore_stimulus (s : State) (k : CoreState s.cfg) : (s.withCore k).stimulus = s.stimulus := rfl
@[simp] theorem withCore_cycle (s : State) (k : CoreState s.cfg) : (s.withCore k).cycle = s.cycle := rfl

@[simp] theorem advance_cfg (s : State) : (advance s).cfg = s.cfg := rfl
@[simp] theorem advance_core (s : State) : (advance s).core = s.core := rfl
@[simp] theorem advance_stimulus (s : State) : (advance s).stimulus = s.stimulus.tail := rfl
@[simp] theorem advance_cycle (s : State) : (advance s).cycle = s.cycle + 1 := rfl

@[simp] theorem pushWord_cfg (s : State) (w : InputWord s.cfg) : (pushWord s w).cfg = s.cfg := rfl
@[simp] theorem pushWord_core (s : State) (w : InputWord s.cfg) : (pushWord s w).core = s.core := rfl
@[simp] theorem pushWord_stimulus (s : State) (w : InputWord s.cfg) : (pushWord s w).stimulus = w :: s.stimulus := rfl
@[simp] theorem pushWord_cycle (s : State) (w : InputWord s.cfg) : (pushWord s w).cycle = s.cycle := rfl

/-! ### The reset state (10_state.md R33) -/

@[simp] theorem reset_frame (c : Config) : (CoreState.reset c).frame = Vector.replicate c.n 0 := rfl
@[simp] theorem reset_cursor (c : Config) : (CoreState.reset c).cursor = 0 := rfl
@[simp] theorem reset_lastEdge (c : Config) : (CoreState.reset c).lastEdge = 0 := rfl
@[simp] theorem reset_pwmShadow (c : Config) : (CoreState.reset c).pwmShadow = 0 := rfl
@[simp] theorem reset_pwmActive (c : Config) : (CoreState.reset c).pwmActive = 0 := rfl
@[simp] theorem reset_loadOk (c : Config) : (CoreState.reset c).loadOk = false := rfl
@[simp] theorem reset_commitReq (c : Config) : (CoreState.reset c).commitReq = false := rfl
@[simp] theorem reset_frameDone (c : Config) : (CoreState.reset c).frameDone = false := rfl
@[simp] theorem reset_frameValid (c : Config) : (CoreState.reset c).frameValid = false := rfl

/-! ### The phases of a cycle (44_cycle.md R155) -/

variable {c : Config} (k : CoreState c)

@[simp] theorem reloadPhase_frame : (reloadPhase k).frame = k.frame := rfl
@[simp] theorem reloadPhase_cursor : (reloadPhase k).cursor = k.cursor := rfl
@[simp] theorem reloadPhase_lastEdge : (reloadPhase k).lastEdge = k.lastEdge := rfl
@[simp] theorem reloadPhase_pwmShadow : (reloadPhase k).pwmShadow = k.pwmShadow := rfl
@[simp] theorem reloadPhase_pwmActive : (reloadPhase k).pwmActive = if k.loadOk then k.pwmShadow else k.pwmActive := rfl
@[simp] theorem reloadPhase_loadOk : (reloadPhase k).loadOk = false := rfl
@[simp] theorem reloadPhase_commitReq : (reloadPhase k).commitReq = k.commitReq := rfl
@[simp] theorem reloadPhase_frameDone : (reloadPhase k).frameDone = k.frameDone := rfl
@[simp] theorem reloadPhase_frameValid : (reloadPhase k).frameValid = k.frameValid := rfl

@[simp] theorem commitPhase_frame : (commitPhase k).frame = k.frame := rfl
@[simp] theorem commitPhase_cursor : (commitPhase k).cursor = k.cursor := rfl
@[simp] theorem commitPhase_lastEdge : (commitPhase k).lastEdge = k.lastEdge := rfl
@[simp] theorem commitPhase_pwmShadow : (commitPhase k).pwmShadow = k.pwmShadow := rfl
@[simp] theorem commitPhase_pwmActive : (commitPhase k).pwmActive = k.pwmActive := rfl
@[simp] theorem commitPhase_loadOk : (commitPhase k).loadOk = (k.commitReq || k.loadOk) := rfl
@[simp] theorem commitPhase_commitReq : (commitPhase k).commitReq = false := rfl
@[simp] theorem commitPhase_frameDone : (commitPhase k).frameDone = false := rfl
@[simp] theorem commitPhase_frameValid : (commitPhase k).frameValid = k.frameValid := rfl

end Sys2Proof.Machine
end

