-- ==== Sys2Proof/Laws/Ops.lean ====
section
/-! SUPPORT. One lemma per shared operation that says all it does; later proofs cite these and unfold no operation. -/

namespace Sys2Proof.Machine

variable {c : Config}

/-! ### Widths (00_scope.md R6, 10_state.md R23) -/

/-- CURSOR_W bits hold every slot index. -/
theorem n_le_two_pow_cursorW (c : Config) : c.n ≤ 2 ^ c.cursorW := by
  have h : c.n ≤ 2 ^ ceilLog2 c.n := by
    unfold ceilLog2
    split
    · omega
    · have := Nat.lt_log2_self (n := c.n - 1)
      omega
  exact h.trans (Nat.pow_le_pow_right (by decide) (le_max_right _ _))

theorem threshold_lt_two_pow_tickW (c : Config) : 2101 < 2 ^ c.tickW :=
  lt_of_lt_of_le (by decide : 2101 < 2 ^ 12) (Nat.pow_le_pow_right (by decide) c.twelve_le_tickW)

theorem pwMax_lt_two_pow_pwW (c : Config) : 2000 < 2 ^ c.pwW :=
  lt_of_lt_of_le (by decide : 2000 < 2 ^ 11) (Nat.pow_le_pow_right (by decide) c.eleven_le_pwW)

/-! ### Operands -/

theorem nowOperand_toNat (now : Tick c) : nowOperand c now.toNat = now := by
  rw [nowOperand, BitVec.ofNat_toNat, BitVec.setWidth_eq]

theorem elapsed_toNat (now : Tick c) (k : CoreState c) : (elapsed now k.lastEdge).toNat = k.elapsedAt now := by
  rw [elapsed, BitVec.toNat_sub, CoreState.elapsedAt]
  congr 1
  have := k.lastEdge.isLt
  omega

theorem pulseWidth_toNat (e : Tick c) : (pulseWidth e).toNat = e.toNat % 2 ^ c.pwW := by
  rw [pulseWidth, BitVec.toNat_setWidth]

theorem cursorOf_toNat {c1 : Nat} (h : c1 < c.n) : (cursorOf c c1).toNat = c1 := by
  rw [cursorOf, BitVec.toNat_ofNat, Nat.mod_eq_of_lt (h.trans_le (n_le_two_pow_cursorW c))]

/-! ### One slot (20_memory.md R51) -/

@[simp] theorem memRead_memWrite_same (f : Frame c) (i : Fin c.n) (v : Slot c) : memRead (memWrite f i v) i = v := by
  simp [memRead, memWrite]

theorem memRead_memWrite_other (f : Frame c) {i j : Fin c.n} (v : Slot c) (h : i ≠ j) :
    memRead (memWrite f i v) j = memRead f j := by
  have h' : i.val ≠ j.val := fun e => h (Fin.ext e)
  simp [memRead, memWrite, h']

/-- The guarded store, slot by slot (41_decoder.md R102, 44_cycle.md R153). -/
theorem storeSlot_getElem (f : Frame c) (cur : Cursor c) (pw : Slot c) (i : Nat) (h : i < c.n) :
    (storeSlot f cur pw)[i] = if i = cur.toNat then pw else f[i] := by
  unfold storeSlot
  split
  · simp only [memWrite, Vector.getElem_set, eq_comm]
  · rw [if_neg (by omega)]

/-- The stored slot is the elapsed interval's low bits. -/
theorem storeSlot_edge (k : CoreState c) (now : Tick c) (i : Nat) (h : i < c.n) :
    ((storeSlot k.frame k.cursor (pulseWidth (elapsed now k.lastEdge)))[i]).toNat = k.slotAfter now i h := by
  rw [storeSlot_getElem, CoreState.slotAfter]
  split <;> simp [pulseWidth_toNat, elapsed_toNat]

theorem slotAfter_cursor (k : CoreState c) (now : Tick c) (h : k.cursor.toNat < c.n) :
    k.slotAfter now k.cursor.toNat h = k.elapsedAt now % 2 ^ c.pwW := if_pos rfl

theorem slotAfter_other (k : CoreState c) (now : Tick c) (i : Nat) (h : i < c.n) (hne : i ≠ k.cursor.toNat) :
    k.slotAfter now i h = (k.frame[i]).toNat := if_neg hne

/-! ### Flags -/

/-- The boundary test of an edge, in the spec's integers (41_decoder.md R103). -/
theorem boundary_edge (k : CoreState c) (now : Tick c) :
    boundary c (elapsed now k.lastEdge) (postIncrement k.cursor) = true ↔ k.BoundaryAt now := by
  simp only [boundary, Bool.or_eq_true, decide_eq_true_eq, c.syncGapThreshold_eq, elapsed_toNat, CoreState.BoundaryAt]
  refine or_congr_right ?_
  unfold postIncrement
  split <;> omega

/-- IS_VALID after an edge's store, in the spec's integers (42_validity.md R120, R121). -/
theorem isValid_edge (k : CoreState c) (now : Tick c) :
    isValid (storeSlot k.frame k.cursor (pulseWidth (elapsed now k.lastEdge))) = true ↔ k.ValidAfter now := by
  rw [isValid_iff, CoreState.ValidAfter, c.pwMin_eq, c.pwMax_eq]
  constructor
  · intro h i hi hv
    have := h ⟨i, hi⟩ hv
    simpa only [memRead, Fin.getElem_fin, storeSlot_edge] using this
  · intro h i hv
    have := h i.val i.isLt hv
    simpa only [memRead, Fin.getElem_fin, storeSlot_edge] using this

/-! ### Re-Encoder -/

theorem dutyNumber_le (c : Config) {v : Nat} (h : v ≤ 2000) : dutyNumber c v ≤ c.maxDuty := by
  unfold dutyNumber
  calc (v - 1000) * c.maxDuty / 1000 ≤ 1000 * c.maxDuty / 1000 :=
        Nat.div_le_div_right (Nat.mul_le_mul_right _ (by omega))
    _ = c.maxDuty := Nat.mul_div_cancel_left _ (by decide)

/-- DUTY fits its register without truncation (43_reencoder.md R130, R146). -/
theorem duty_toNat (v : Slot c) (h : 1000 ≤ v.toNat ∧ v.toNat ≤ 2000) : (duty v h).toNat = dutyNumber c v.toNat := by
  have hle := dutyNumber_le c h.2
  have hmax := c.maxDuty_le
  have hpos := Nat.two_pow_pos c.dutyW
  rw [duty, BitVec.toNat_ofNat]
  exact Nat.mod_eq_of_lt (by unfold dutyNumber at hle; omega)

/-- The consumer writes the shadow and asks for the commit with CONSUMER = PWM, and nothing with LOG. -/
theorem consume_cases (k : CoreState c) (h : isValid k.frame = true) :
    (c.consumer = .pwm ∧ consume k h = { k with
      pwmShadow := duty (memRead k.frame (throttleSlot c)) (isValid_throttle h), commitReq := true }) ∨
    (c.consumer = .log ∧ consume k h = k) := by
  unfold consume
  cases hc : c.consumer with
  | pwm => exact .inl ⟨rfl, rfl⟩
  | log => exact .inr ⟨rfl, rfl⟩

/-! ### The decoder's half of a cycle: all it can do -/

/-- The state with an edge's interval captured and stored (41_decoder.md R101, R102). -/
def storedAt (now : Tick c) (k : CoreState c) : CoreState c :=
  { k with lastEdge := now, frame := storeSlot k.frame k.cursor (pulseWidth (elapsed now k.lastEdge)) }

/-- The three outcomes of an edge (41_decoder.md R103 to R105): no boundary; a boundary that writes no duty; a
boundary at which phase 1 fires. -/
theorem edgePhase_cases (now : Tick c) (k : CoreState c) :
    (¬ k.BoundaryAt now ∧
      edgePhase now k = { storedAt now k with frameDone := false, cursor := cursorOf c (k.cursor.toNat + 1) }) ∨
    (k.BoundaryAt now ∧ ¬ (k.ValidAfter now ∧ c.consumer = .pwm) ∧
      edgePhase now k = { storedAt now k with
        frameDone := true, frameValid := isValid (storedAt now k).frame, cursor := 0 }) ∨
    (∃ hv : isValid (storedAt now k).frame = true, k.BoundaryAt now ∧ k.ValidAfter now ∧ c.consumer = .pwm ∧
      edgePhase now k = { storedAt now k with
        frameDone := true, frameValid := true, cursor := 0, commitReq := true,
        pwmShadow := duty (memRead (storedAt now k).frame (throttleSlot c)) (isValid_throttle hv) }) := by
  have hval := isValid_edge k now
  by_cases hb : k.BoundaryAt now
  · have hb' := (boundary_edge k now).mpr hb
    by_cases hv : isValid (storedAt now k).frame = true
    · have hunf : edgePhase now k = consume { storedAt now k with
          frameDone := true, frameValid := isValid (storedAt now k).frame, cursor := 0 } hv := by
        simp only [edgePhase, hb', if_true, completeFrame]
        exact dif_pos hv
      rcases consume_cases { storedAt now k with
          frameDone := true, frameValid := isValid (storedAt now k).frame, cursor := 0 } hv with ⟨hc, he⟩ | ⟨hc, he⟩
      · exact .inr (.inr ⟨hv, hb, hval.mp hv, hc, by rw [hunf, he]; simp only [hv]⟩)
      · exact .inr (.inl ⟨hb, fun h => by simp [hc] at h, by rw [hunf, he]⟩)
    · refine .inr (.inl ⟨hb, fun h => hv (hval.mpr h.1), ?_⟩)
      simp only [edgePhase, hb', if_true, completeFrame]
      exact dif_neg hv
  · refine .inl ⟨hb, ?_⟩
    have hb' := mt (boundary_edge k now).mp hb
    have hlt : k.cursor.toNat < c.n := by
      simp only [CoreState.BoundaryAt] at hb
      omega
    simp only [edgePhase, storedAt, postIncrement, hlt, if_true]
    rw [if_neg]
    simpa only [postIncrement, hlt, if_true] using hb'

/-! ### The meanings, by one equation each -/

theorem exec_reset (s : State) : exec .reset s = .next (s.withCore (CoreState.reset s.cfg)) := rfl
theorem exec_idle (s : State) : exec .idle s = .next (s.withCore (commitPhase s.core)) := rfl
theorem exec_reload (s : State) : exec .reload s = .next (s.withCore (commitPhase (reloadPhase s.core))) := rfl
theorem exec_edge (s : State) (now : Nat) :
    exec (.edge now) s = .next (s.withCore (edgePhase (nowOperand s.cfg now) (commitPhase s.core))) := rfl
theorem exec_edgeReload (s : State) (now : Nat) :
    exec (.edgeReload now) s =
      .next (s.withCore (edgePhase (nowOperand s.cfg now) (commitPhase (reloadPhase s.core)))) := rfl

theorem step_eq (s : State) : step s = exec (decode s.cfg (drivenWord s)) (advance s) := rfl

end Sys2Proof.Machine
end

