-- ==== Sys2Proof/Laws/PerInstr.lean ====
section
/-! SUPPORT. Statements made per instruction. Family FormatV: the fields of an instruction's canonical word are its
opcode bits and its operand (30_encoding.md R71, R72). -/

namespace Sys2Proof.Laws.FormatV

/-- The four fields of the canonical word. -/
def Statement (i : Instr) : Prop :=
  ∀ c : Config, i.WellFormed c →
    rstBit c (encode c i) = (opOf i).getLsbD 2 ∧ edgeValidBit c (encode c i) = (opOf i).getLsbD 1 ∧
    pwmReloadBit c (encode c i) = (opOf i).getLsbD 0 ∧ (nowField c (encode c i)).toNat = operandOf i

theorem of_operand {i : Instr} (h : ∀ c : Config, i.WellFormed c → operandOf i < 2 ^ c.tickW) : Statement i := by
  intro c hw
  refine ⟨rstBit_append _ _, edgeValidBit_append _ _, pwmReloadBit_append _ _, ?_⟩
  rw [encode, nowField_append, BitVec.toNat_ofNat, Nat.mod_eq_of_lt (h c hw)]

theorem reset : Statement .reset := of_operand fun _ _ => Nat.two_pow_pos _
theorem idle : Statement .idle := of_operand fun _ _ => Nat.two_pow_pos _
theorem reload : Statement .reload := of_operand fun _ _ => Nat.two_pow_pos _
theorem edge (now : Nat) : Statement (.edge now) :=
  of_operand fun _ h => of_decide_eq_true h
theorem edgeReload (now : Nat) : Statement (.edgeReload now) :=
  of_operand fun _ h => of_decide_eq_true h

end Sys2Proof.Laws.FormatV
end

