-- ==== Sys2Proof/Laws/Run.lean ====
section
/-! SUPPORT. Unrolling runs: the host's `Host.Core.run` of this machine, and `runInputs` of the core (44_cycle.md R158). -/

namespace Sys2Proof.Machine

theorem run_of_step_next (M : Host.Core) {n : Nat} {s t : M.State} (h : M.step s = .next t) :
    M.run (n + 1) s = M.run n t := by
  rw [Host.Core.run, h]

/-- The same for this machine, with `step` and `State` under their own names. -/
theorem core_run_succ {n : Nat} {s t : State} (h : step s = .next t) :
    Host.Core.run core (n + 1) s = Host.Core.run core n t :=
  run_of_step_next core h

variable {c : Config}

@[simp] theorem runInputs_nil (k : CoreState c) : runInputs k [] = k := rfl

@[simp] theorem runInputs_cons (k : CoreState c) (inp : InputVector c) (rest : List (InputVector c)) :
    runInputs k (inp :: rest) = runInputs (stepFunction c k inp) rest := rfl

theorem runInputs_append (k : CoreState c) (xs ys : List (InputVector c)) :
    runInputs k (xs ++ ys) = runInputs (runInputs k xs) ys := List.foldl_append

theorem edgeCycles_cons (inp : InputVector c) (rest : List (InputVector c)) :
    edgeCycles (inp :: rest) = edgeCycles rest + if inp.edgeValid && !inp.rst then 1 else 0 := List.countP_cons

end Sys2Proof.Machine
end

