-- ==== Sys2Proof/Tests/Slice0.lean ====
section
/-! SUPPORT. The model's own tests. Expected results come from spec/95_test_vectors.md (the section is named with each
group) or from the rule named; none is the model's own answer. -/

namespace Sys2Proof.Machine.Tests

/-! ### WellFormed: an ill-formed term for each check (00_scope.md R6, 30_encoding.md R77) -/

abbrev g : Cfg := Config.ref.toCfg

theorem test_wf_ref : g.wellFormed = true := by decide
theorem test_wf_n_below_two : Cfg.wellFormed { g with n := 1, validCount := 1, throttleIdx := 0 } = false := by decide
theorem test_wf_validCount_zero : Cfg.wellFormed { g with validCount := 0 } = false := by decide
theorem test_wf_validCount_above_n : Cfg.wellFormed { g with validCount := 10 } = false := by decide
theorem test_wf_throttle_not_validated : Cfg.wellFormed { g with throttleIdx := 8 } = false := by decide
theorem test_wf_slot_too_narrow : Cfg.wellFormed { g with pwW := 10 } = false := by decide
theorem test_wf_slot_wider_than_tick : Cfg.wellFormed { g with pwW := 33 } = false := by decide
theorem test_wf_tick_too_narrow : Cfg.wellFormed { g with pwW := 11, tickW := 11 } = false := by decide
theorem test_wf_duty_width_zero : Cfg.wellFormed { g with dutyW := 0, maxDuty := 0 } = false := by decide
theorem test_wf_maxDuty_too_wide : Cfg.wellFormed { g with maxDuty := 65536 } = false := by decide
theorem test_wf_minDuty_not_zero : Cfg.wellFormed { g with minDuty := 1 } = false := by decide
theorem test_wf_threshold_fixed : Cfg.wellFormed { g with syncGapThreshold := 2000 } = false := by decide
theorem test_wf_pwMin_fixed : Cfg.wellFormed { g with pwMin := 999 } = false := by decide
theorem test_wf_pwMax_fixed : Cfg.wellFormed { g with pwMax := 2001 } = false := by decide
theorem test_wf_operand_edge : (Instr.edge 4294967296).wellFormed Config.ref = false := by decide
theorem test_wf_operand_edgeReload : (Instr.edgeReload 4294967296).wellFormed Config.ref = false := by decide
theorem test_wf_operand_largest : (Instr.edge 4294967295).wellFormed Config.ref = true := by decide
theorem test_cursorW : (Config.ref.cursorW, Cfg.cursorW { g with n := 4 }, Cfg.cursorW { g with n := 2 },
    Cfg.cursorW { g with n := 5 }) = (4, 2, 1, 3) := by decide

/-! ### Decoding (section 2.7; the words bit by bit from 30_encoding.md R72) -/

theorem test_decode_reset : decode Config.ref 0x400000000 = .reset := by decide
theorem test_decode_reset_all_ones : decode Config.ref 0x7FFFFFFFF = .reset := by decide
theorem test_decode_reset_with_edge : decode Config.ref 0x600001388 = .reset := by decide
theorem test_decode_idle : decode Config.ref 0x000000000 = .idle := by decide
theorem test_decode_idle_now_ignored : decode Config.ref 0x0DEADBEEF = .idle := by decide
theorem test_decode_reload : decode Config.ref 0x100000000 = .reload := by decide
theorem test_decode_reload_now_ignored : decode Config.ref 0x1FFFFFFFF = .reload := by decide
theorem test_decode_edge : decode Config.ref 0b01000000000000000000001001110001000 = .edge 5000 := by decide
theorem test_decode_edge_largest : decode Config.ref 0x2FFFFFFFF = .edge 4294967295 := by decide
theorem test_decode_edgeReload : decode Config.ref 0b01100000000000000000110001110011100 = .edgeReload 25500 := by decide
theorem test_encode_edgeReload : encode Config.ref (.edgeReload 5000) = 0x300001388 := by decide
theorem test_decode_too_wide : decodeNat Config.ref 0x800000000 = .error .wordTooWide := by decide
theorem test_decodeTableWord : decodeTableWord 35 0x200001388 = some (.edge 5000) := by decide
theorem test_decodeTableWord_whole_bytes : decodeTableWord 40 0x8000000000 = none := by decide

/-- The configuration of section 3, program P8. -/
def small : Config where
  n := 4
  validCount := 3
  syncGapThreshold := 2100
  pwMin := 1000
  pwMax := 2000
  throttleIdx := 1
  minDuty := 0
  maxDuty := 1000
  tickW := 16
  pwW := 16
  dutyW := 10
  consumer := .pwm
  edgeSel := .rising
  wf := by decide

theorem test_decode_small : (decode small 0x40000, decode small 0x10000, decode small 0x2EA60, decode small 0x3EA60) =
    (.reset, .reload, .edge 60000, .edgeReload 60000) := by decide

/-! ### ELAPSED, the narrowing, the boundary test, IS_VALID, DUTY (sections 2.1 to 2.5) -/

theorem test_elapsed_wrap : elapsed (c := Config.ref) 904 4294966800 = 1400 := by decide
theorem test_elapsed_backwards : elapsed (c := Config.ref) 100 200 = 4294967196 := by decide
theorem test_pulseWidth_narrows : pulseWidth (c := Config.ref) 67036 = 1500 := by decide
theorem test_pulseWidth_equal_width : pulseWidth (c := Config.ref32) 67036 = 67036 := by decide
theorem test_boundary_at_threshold : boundary Config.ref 2100 (postIncrement (3 : Cursor Config.ref)) = false := by decide
theorem test_boundary_above_threshold : boundary Config.ref 2101 (postIncrement (3 : Cursor Config.ref)) = true := by decide
theorem test_boundary_overrun : boundary Config.ref 0 (postIncrement (8 : Cursor Config.ref)) = true := by decide
theorem test_boundary_seven : boundary Config.ref 0 (postIncrement (7 : Cursor Config.ref)) = false := by decide
theorem test_boundary_unreachable : boundary Config.ref 1500 (postIncrement (12 : Cursor Config.ref)) = true := by decide
theorem test_valid_bounds : isValid (c := Config.ref) #v[1000, 2000, 1000, 2000, 1000, 2000, 1000, 2000, 0] = true := by decide
theorem test_valid_low : isValid (c := Config.ref) #v[999, 1500, 1500, 1500, 1500, 1500, 1500, 1500, 8000] = false := by decide
theorem test_valid_high_last_checked :
    isValid (c := Config.ref) #v[1500, 1500, 1500, 1500, 1500, 1500, 1500, 2001, 8000] = false := by decide
theorem test_duty_rounds_down : duty (c := Config.ref) 1003 (by decide) = 196 := by decide
theorem test_duty_half : duty (c := Config.ref) 1500 (by decide) = 32767 := by decide
theorem test_duty_full : duty (c := Config.ref) 2000 (by decide) = 65535 := by decide

/-! ### One step of each operation (sections 2.6 and 2.7) -/

/-- A core state in the order of 30_encoding.md R79. -/
def st (cursor lastEdge : Nat) (frame : Frame Config.ref) (sh ac : Nat) (lok creq fd fv : Bool) : CoreState Config.ref where
  frame := frame
  cursor := BitVec.ofNat _ cursor
  lastEdge := BitVec.ofNat _ lastEdge
  pwmShadow := BitVec.ofNat _ sh
  pwmActive := BitVec.ofNat _ ac
  loadOk := lok
  commitReq := creq
  frameDone := fd
  frameValid := fv

/-- The REF machine with the core in a state and one word to run. -/
def at1 (k : CoreState Config.ref) (w : InputWord Config.ref) : State :=
  { cfg := Config.ref, core := k, stimulus := [w], cycle := 0 }

/-- The same machine one cycle later. -/
def after1 (k : CoreState Config.ref) : State :=
  { cfg := Config.ref, core := k, stimulus := [], cycle := 1 }

/-- Eight equal slots and the sync gap. -/
def flat : Frame Config.ref := #v[1500, 1500, 1500, 1500, 1500, 1500, 1500, 1500, 8000]

/-- The step runs to this core state. -/
def StepsTo (k : CoreState Config.ref) (w : InputWord Config.ref) (k' : CoreState Config.ref) : Bool :=
  match step (at1 k w) with
  | .next s => decide (s = after1 k')
  | .fault _ => false
  | .refused _ => false

theorem test_step_reset : StepsTo (st 4 11000 #v[1500, 1500, 1500, 1500, 0, 0, 0, 0, 0] 32767 32767 true true true true)
    0x600001388 (st 0 0 #v[0, 0, 0, 0, 0, 0, 0, 0, 0] 0 0 false false false false) = true := by decide
theorem test_step_idle : StepsTo (st 0 25000 flat 32767 0 false true true true) 0x000000000
    (st 0 25000 flat 32767 0 true false false true) = true := by decide
theorem test_step_reload_promotes : StepsTo (st 0 25000 flat 7 3 true false true true) 0x100000000
    (st 0 25000 flat 7 7 false false false true) = true := by decide
theorem test_step_reload_commit_wins : StepsTo (st 0 25500 flat 65535 0 false true true true) 0x1FFFFFFFF
    (st 0 25500 flat 65535 0 true false false true) = true := by decide
theorem test_step_edge_wrap_overrun_invalid :
    StepsTo (st 8 4294967000 #v[1500, 1500, 1500, 900, 1500, 1500, 1500, 1500, 0] 7 7 false false false true) 0x2000000CC
      (st 0 204 #v[1500, 1500, 1500, 900, 1500, 1500, 1500, 1500, 500] 7 7 false false true false) = true := by decide
theorem test_step_edge_unreachable_cursor :
    StepsTo (st 12 100 #v[1500, 1500, 1500, 1500, 1500, 1500, 1500, 1500, 1500] 7 3 false false false false) 0x200000640
      (st 0 1600 #v[1500, 1500, 1500, 1500, 1500, 1500, 1500, 1500, 1500] 32767 3 false true true true) = true := by decide
theorem test_step_edgeReload_old_shadow :
    StepsTo (st 8 17000 #v[1500, 1500, 1800, 1500, 1500, 1500, 1500, 1500, 0] 13107 0 true false false false) 0x3000061A8
      (st 0 25000 #v[1500, 1500, 1800, 1500, 1500, 1500, 1500, 1500, 8000] 52428 13107 false true true true) = true := by
  decide
theorem test_step_edgeReload_nothing_pending :
    StepsTo (st 8 17500 #v[1500, 1500, 2000, 1500, 1500, 1500, 1500, 1500, 0] 0 0 false false false false) 0x30000639C
      (st 0 25500 #v[1500, 1500, 2000, 1500, 1500, 1500, 1500, 1500, 8000] 65535 0 false true true true) = true := by
  decide

/-! ### The operand of withFetchWord, the outputs, the other variants (sections 2.4, 2.7, 3; 20_memory.md R52) -/

theorem test_withFetchWord : drivenWord (State.reset.withFetchWord 35 0x200001388) = 0x200001388 := by decide
theorem test_frameOut_slot_zero_lowest :
    frameOut (c := small) #v[0x1111, 0x2222, 0x3333, 0x4444] = 0x4444333322221111 := by decide
/-- Section 2.2 at `PW_W = 32`: the wide slot keeps 67036, which the range check then refuses. -/
theorem test_ref32_wide_slot_invalid : isValid (c := Config.ref32)
    (storeSlot #v[1500, 1500, 1500, 1500, 1500, 1500, 1500, 1500, 8000] 0 (pulseWidth 67036)) = false := by decide
/-- Section 2.7, last row: under LOG a valid boundary writes neither the shadow nor the commit request. -/
theorem test_log_consumer_idle_side : (edgePhase (c := Config.ref.withConsumer .log) 8000
    ⟨#v[1500, 1500, 1500, 1500, 1500, 1500, 1500, 1500, 0], 8, 0, 0, 0, false, false, false, false⟩) =
    ⟨#v[1500, 1500, 1500, 1500, 1500, 1500, 1500, 1500, 8000], 0, 8000, 0, 0, false, false, true, true⟩ := by decide

/-! ### The stimulus syntax (30_encoding.md R77, R78) -/

/-- `EDGE 0x1388 ; an edge` -/
theorem test_parse_hexadecimal : parseLine Config.ref
    ['E', 'D', 'G', 'E', ' ', '0', 'x', '1', '3', '8', '8', ' ', ';', ' ', 'a'] = some (.op (.edge 5000)) := by decide
/-- `PULSE_RELOAD 1500` -/
theorem test_parse_pseudo : parseLine Config.ref ['P', 'U', 'L', 'S', 'E', '_', 'R', 'E', 'L', 'O', 'A', 'D', ' ',
    '1', '5', '0', '0'] = some (.pulseReload 1500) := by decide
/-- `idle` is no mnemonic: "mnemonics are upper case". -/
theorem test_parse_lower_case : parseLine Config.ref ['i', 'd', 'l', 'e'] = none := by decide
/-- `EDGE 65536` at `TICK_W = 16`: the operand "must be below `2^TICK_W`". -/
theorem test_parse_operand_bound : parseLine small ['E', 'D', 'G', 'E', ' ', '6', '5', '5', '3', '6'] = none := by decide
/-- The first words of program P1, by R78: `t` is 5000, then 6500. -/
theorem test_assemble_pulse : assemble Config.ref [.op .reset, .op (.edge 5000), .pulse 1500, .idles 2] =
    [0x400000000, 0x200001388, 0x200001964, 0, 0] := by decide

/-! ### Witnesses: for each statement with hypotheses, concrete states and operands that meet all of them, every clause
at a boundary value of its range -/

/-- Nine slots filled but the last: a valid boundary is one edge away (section 2.7). -/
def eight (cur : Nat) (lok creq fd : Bool) : CoreState Config.ref :=
  st cur 17000 #v[1500, 1500, 1800, 1500, 1500, 1500, 1500, 1500, 0] 13107 0 lok creq fd false

/-- Input vectors of REF. -/
def inp (rst ev rl : Bool) (now : Nat) : InputVector Config.ref := ⟨rst, ev, rl, BitVec.ofNat _ now⟩

theorem fires_eight (lok creq fd : Bool) : (eight 8 lok creq fd).FiresAt (25000 : Tick Config.ref) := by
  refine ⟨.inl ?_, ?_, rfl⟩
  · revert lok creq fd
    decide
  · unfold CoreState.ValidAfter CoreState.slotAfter
    revert lok creq fd
    decide

/-- At cursor 7 a gap of exactly 2100 is no boundary, one of 2101 is, and cursors 8 and 12 are at any gap. -/
theorem boundary_clauses :
    ¬ (eight 7 false false false).BoundaryAt (19100 : Tick Config.ref) ∧
    (eight 7 false false false).BoundaryAt (19101 : Tick Config.ref) ∧
    (eight 8 false false false).BoundaryAt (17000 : Tick Config.ref) ∧
    (eight 12 false false false).BoundaryAt (17000 : Tick Config.ref) := by
  unfold CoreState.BoundaryAt
  decide

theorem not_fires_without_boundary : ¬ (eight 7 false false false).FiresAt (19100 : Tick Config.ref) :=
  fun h => boundary_clauses.1 h.1

theorem witness_DecodeEncodeRoundTrip :
    Instr.reset.WellFormed Config.ref ∧ Instr.idle.WellFormed Config.ref ∧ Instr.reload.WellFormed Config.ref ∧
    (Instr.edge 4294967295).WellFormed Config.ref ∧ (Instr.edgeReload 0).WellFormed Config.ref := by decide

/-- The three kinds of word: RESET with every ignored bit 1, an edge, and RELOAD with every ignored bit 1. -/
theorem witness_EncodeDecodeClearsIgnoredBits :
    rstBit Config.ref 0x7FFFFFFFF = true ∧
    (rstBit Config.ref 0x3FFFFFFFF = false ∧ edgeValidBit Config.ref 0x3FFFFFFFF = true) ∧
    (rstBit Config.ref 0x1FFFFFFFF = false ∧ edgeValidBit Config.ref 0x1FFFFFFFF = false) := by decide

theorem witness_OpcodeMapMatchesMasks : (0 : Nat) < 2 ^ Config.ref.tickW ∧ 4294967295 < 2 ^ Config.ref.tickW := by decide

theorem witness_IgnoredBitsHaveNoEffect :
    (rstBit Config.ref 0x400000000 = true ∧ rstBit Config.ref 0x7FFFFFFFF = true) ∧
    (rstBit Config.ref 0x100000000 = false ∧ rstBit Config.ref 0x1FFFFFFFF = false ∧
      edgeValidBit Config.ref 0x100000000 = false ∧ edgeValidBit Config.ref 0x1FFFFFFFF = false ∧
      pwmReloadBit Config.ref 0x100000000 = pwmReloadBit Config.ref 0x1FFFFFFFF) := by decide

theorem witness_StepRunsDrivenWord :
    (at1 (eight 8 false false false) 0x200001388).stimulus = [0x200001388] ∧ State.reset.stimulus = [] := by decide

theorem witness_FetchWordRunsNext :
    decodeTableWord 35 0x400000000 = some .reset ∧ decodeTableWord 35 0x3FFFFFFFF = some (.edgeReload 4294967295) := by
  decide

/-- No reset: a cycle without an edge, an edge that is no boundary, one at which phase 1 fires. -/
theorem witness_PseudocodeMeetsFieldEquations :
    ((inp false false true 0).rst = false ∧ (inp false false true 0).edgeValid = false) ∧
    ((inp false true false 19100).rst = false ∧ (inp false true false 19100).edgeValid = true ∧
      ¬ (eight 7 false false false).BoundaryAt (inp false true false 19100).now) ∧
    ((inp false true true 25000).rst = false ∧ (inp false true true 25000).edgeValid = true ∧
      (eight 8 true true true).FiresAt (inp false true true 25000).now) :=
  ⟨⟨rfl, rfl⟩, ⟨rfl, rfl, boundary_clauses.1⟩, ⟨rfl, rfl, fires_eight true true true⟩⟩

theorem witness_ResetCycleClearsEveryField : rstBit Config.ref 0x600001388 = true := by decide

theorem witness_IdleCycleResult :
    (eight 8 false true true).commitReq = true ∧
    ((eight 8 true false false).commitReq = false ∧ (eight 8 true false false).frameDone = false) := by decide

theorem witness_ReloadCycleResult :
    ((eight 8 true false false).loadOk = true ∧ (eight 8 true false false).commitReq = false) ∧
    ((eight 8 false true false).loadOk = false ∧ (eight 8 false true false).commitReq = true) ∧
    ((eight 8 false false true).loadOk = false ∧ (eight 8 false false true).commitReq = false) := by decide

theorem witness_EdgeCycleResult :
    ¬ (eight 7 false false false).BoundaryAt (19100 : Tick Config.ref) ∧
    (eight 12 false false false).BoundaryAt (17000 : Tick Config.ref) ∧
    ¬ (eight 7 false false false).FiresAt (19100 : Tick Config.ref) ∧
    (eight 8 false false false).FiresAt (25000 : Tick Config.ref) :=
  ⟨boundary_clauses.1, boundary_clauses.2.2.2, not_fires_without_boundary, fires_eight false false false⟩

/-- Each clause: no edge; a slot that is not the cursor's; an edge that is no boundary; no reload; nothing due. -/
theorem witness_WriteOwnership :
    (Instr.reload.WellFormed Config.ref ∧ edgeTick Config.ref .reload = none) ∧
    (8 < Config.ref.n ∧ 8 ≠ (eight 7 false false false).cursor.toNat) ∧
    ((Instr.edge 19100).WellFormed Config.ref ∧ edgeTick Config.ref (.edge 19100) = some 19100 ∧
      ¬ (eight 7 false false false).BoundaryAt (19100 : Tick Config.ref)) ∧
    (servesReload (.edge 19100) = false ∧ (eight 7 false false false).commitReq = false) ∧
    (servesReload .reload = true ∧ (eight 7 false false false).loadOk = false) :=
  ⟨by decide, by decide, ⟨by decide, by decide, boundary_clauses.1⟩, by decide, by decide⟩

theorem witness_PromotionLaw :
    (Instr.reload.WellFormed Config.ref ∧ Instr.reload ≠ .reset ∧ servesReload .reload = true ∧
      (eight 8 true false false).loadOk = true) ∧
    (Instr.idle.WellFormed Config.ref ∧ Instr.idle ≠ .reset ∧ servesReload .idle = false) := by decide

theorem witness_CommitBeatsReloadClear :
    ((Instr.edgeReload 25000).WellFormed Config.ref ∧ Instr.edgeReload 25000 ≠ .reset ∧
      servesReload (.edgeReload 25000) = true ∧ (eight 8 true false false).commitReq = false) ∧
    (servesReload (.edge 25000) = false ∧ (eight 8 true true false).commitReq = true) ∧
    ((eight 8 false true false).commitReq = true ∧ (eight 8 false true false).loadOk = false ∧
      servesReload .reload = true ∧ Instr.reload.WellFormed Config.ref) := by decide

theorem witness_TwoPhaseWrite :
    ((Instr.edgeReload 25000).WellFormed Config.ref ∧ Instr.edgeReload 25000 ≠ .reset ∧
      edgeTick Config.ref (.edgeReload 25000) = some 25000 ∧ (eight 8 true true true).FiresAt (25000 : Tick Config.ref)) ∧
    (∀ now, edgeTick Config.ref .idle = some now → ¬ (eight 8 true true true).FiresAt now) ∧
    (∀ now, edgeTick Config.ref (.edge 19100) = some now → ¬ (eight 7 false false false).FiresAt now) ∧
    (servesReload .idle = false ∧ (eight 8 true false false).commitReq = false ∧ (eight 8 true true false).commitReq = true) ∧
    (servesReload .reload = true ∧ (eight 8 true false false).loadOk = true ∧ (eight 8 false false false).loadOk = false) := by
  refine ⟨⟨by decide, by decide, by decide, fires_eight true true true⟩, ?_, ?_, by decide, by decide⟩
  · exact fun now h => absurd h (by simp [edgeTick])
  · intro now h
    obtain rfl := Option.some.inj h
    exact not_fires_without_boundary

theorem witness_ShadowWriteWhilePending :
    (eight 8 true false false).loadOk = true ∧ (eight 8 true false false).FiresAt (25000 : Tick Config.ref) :=
  ⟨rfl, fires_eight true false false⟩

theorem witness_LogConsumerDecodesAlike : (Instr.edge 25000).WellFormed Config.ref := by decide

theorem witness_ElapsedIsModular :
    (5000 : Tick Config.ref).toNat ≤ (5000 : Tick Config.ref).toNat ∧
    (0 : Tick Config.ref).toNat < (4294967295 : Tick Config.ref).toNat := by decide

theorem witness_IntervalStoredAcrossWrap :
    ((eight 7 false false false).cursor.toNat < Config.ref.n ∧ 2100 < 2 ^ Config.ref.tickW ∧
      (eight 7 false false false).cursor.toNat + 1 < Config.ref.n) ∧
    ((eight 8 false false false).cursor.toNat < Config.ref.n ∧ 4294967295 < 2 ^ Config.ref.tickW ∧
      2100 < 2101 ∧ 2101 < 2 ^ Config.ref.tickW) := by decide

theorem witness_ValidityChecksLeadingSlots : 8 < Config.ref.n ∧ Config.ref.validCount ≤ 8 ∧ 7 < Config.ref.validCount := by
  decide

theorem witness_DutyIsLinear :
    (1000 ≤ (1000 : Slot Config.ref).toNat ∧ (1000 : Slot Config.ref).toNat ≤ 2000) ∧
    (1000 ≤ (1500 : Slot Config.ref).toNat ∧ (1500 : Slot Config.ref).toNat ≤ 2000) ∧
    (1000 ≤ (2000 : Slot Config.ref).toNat ∧ (2000 : Slot Config.ref).toNat ≤ 2000) := by decide

theorem witness_OutputsViewStateFields : 8 < Config.ref.n := by decide

theorem witness_FirstEdgeAfterReset :
    State.reset.core = CoreState.reset State.reset.cfg ∧ (2100 : Tick Config.ref).toNat ≤ 2100 ∧
    2100 < (2101 : Tick Config.ref).toNat ∧ 2 ≤ Config.ref.validCount := ⟨rfl, by decide⟩

/-- REF32: a gap of 2101 at cursor 7; and a valid boundary taken at cursor 8. -/
theorem witness_ShortFrameIsInvalid :
    Config.ref32.pwW = Config.ref32.tickW ∧ Config.ref32.validCount = Config.ref32.n - 1 ∧
    (let k : CoreState Config.ref32 :=
        ⟨#v[1500, 1500, 1500, 1500, 1500, 1500, 1500, 1500, 0], 7, 0, 0, 0, false, false, false, false⟩;
      k.cursor.toNat < Config.ref32.validCount ∧ 2100 < k.elapsedAt (2101 : Tick Config.ref32)) ∧
    (let k : CoreState Config.ref32 :=
        ⟨#v[1500, 1500, 1500, 1500, 1500, 1500, 1500, 1500, 0], 8, 0, 0, 0, false, false, false, false⟩;
      k.cursor.toNat < Config.ref32.n ∧ (edgePhase 2101 k).frameDone = true ∧ (edgePhase 2101 k).frameValid = true) := by
  decide

/-- The least such interval (65536 + 1000) and one near the largest (its low 16 bits 2000), at cursor 7. -/
theorem witness_NarrowSlotAcceptsAliasedGap :
    (∀ e ∈ [66536, 4294903760], 2 ^ Config.ref.pwW ≤ e ∧ e < 2 ^ Config.ref.tickW ∧
      1000 ≤ e % 2 ^ Config.ref.pwW ∧ e % 2 ^ Config.ref.pwW ≤ 2000) ∧
    (eight 7 false false false).cursor.toNat < Config.ref.validCount ∧
    (∀ (i : Nat) (h : i < Config.ref.n), i < Config.ref.validCount → i ≠ (eight 7 false false false).cursor.toNat →
      1000 ≤ ((eight 7 false false false).frame[i]).toNat ∧ ((eight 7 false false false).frame[i]).toNat ≤ 2000) ∧
    Config.ref.consumer = .pwm ∧ (Config.ref.withConsumer .log).consumer = .log := by
  decide

/-- Cursor 8 (the second edge then starts the next frame) and cursor 7. -/
theorem witness_HeldStrobeIsTwoEdges :
    (eight 8 false false false).cursor.toNat < Config.ref.n ∧ (eight 7 false false false).cursor.toNat < Config.ref.n := by
  decide

/-- The state after a valid boundary (section 2.7), with a commit due; and a step from it. -/
theorem witness_StepKeepsInvariant :
    (at1 (st 0 25000 flat 32767 16383 false true true true) 0x3FFFFFFFF).Inv ∧
    ∃ t, step (at1 (st 0 25000 flat 32767 16383 false true true true) 0x3FFFFFFFF) = .next t :=
  ⟨{ cursor_lt := by decide
     shadow_duty := ⟨1500, by decide⟩
     active_duty := ⟨1250, by decide⟩
     done_cursor := fun _ => rfl
     done_valid := by decide
     commit_done := by decide
     commit_duty := by decide
     log_quiet := by decide }, _, rfl⟩

theorem witness_CursorStaysBelowCapacity : (eight 8 false false false).cursor.toNat < Config.ref.n := by decide

theorem witness_ResetForgetsHistory : (inp true true true 5000).rst = true := rfl

theorem witness_FrameIntactBetweenEdges :
    NoReset [inp false false false 7, inp false false true 0] ∧
    edgeCycles [inp false false false 7, inp false false true 0] = 0 := by
  unfold NoReset
  decide

theorem witness_BoundaryWithinCapacityEdges :
    NoReset (List.replicate 9 (inp false true false 0)) ∧
    Config.ref.n ≤ edgeCycles (List.replicate 9 (inp false true false 0)) := by
  unfold NoReset
  decide

/-- Scenario A's shape (section 1, S1) with a reload and an idle cycle between the edges: intervals at both ends of the
range, and the sync gap as long as a tick count can be. -/
theorem witness_WellFormedFrameIsDecoded :
    let ins := [inp false true false 1000, inp false false true 7, inp false true false 3000, inp false false false 0,
      inp false true true 4500, inp false true false 6000, inp false true false 7500, inp false true false 9000,
      inp false true false 10500, inp false true false 12000]
    let last := inp false true true 11999
    let ds := intervals (CoreState.reset Config.ref).lastEdge (ins ++ [last])
    (CoreState.reset Config.ref).cursor = 0 ∧ (∀ i ∈ ins ++ [last], i.rst = false) ∧ last.edgeValid = true ∧
    ds = [1000, 2000, 1500, 1500, 1500, 1500, 1500, 1500, 4294967295] ∧ ds.length = Config.ref.n ∧
    (∀ (i : Nat) (h : i < ds.length), i < Config.ref.validCount → 1000 ≤ ds[i] ∧ ds[i] ≤ 2000) ∧
    (∀ (i : Nat) (h : i < ds.length), i + 1 < Config.ref.n → ds[i] ≤ 2100) ∧
    Config.ref.consumer = .pwm := by decide

/-- Every slot validated, as 42_validity.md R122 lets a configuration be, and an overrun frame of two in-range
intervals (Scenario C). -/
def whole : Config where
  toCfg := { small.toCfg with n := 2, validCount := 2 }
  wf := by decide

theorem witness_WellFormedFrameIsDecoded_every_slot_validated :
    let ins : List (InputVector whole) := [⟨false, true, false, 1000⟩]
    let last : InputVector whole := ⟨false, true, false, 3000⟩
    let ds := intervals (CoreState.reset whole).lastEdge (ins ++ [last])
    (CoreState.reset whole).cursor = 0 ∧ (∀ i ∈ ins ++ [last], i.rst = false) ∧ last.edgeValid = true ∧
    ds.length = whole.n ∧ whole.validCount = whole.n ∧
    (∀ (i : Nat) (h : i < ds.length), i < whole.validCount → 1000 ≤ ds[i] ∧ ds[i] ≤ 2000) ∧
    (∀ (i : Nat) (h : i < ds.length), i + 1 < whole.n → ds[i] ≤ 2100) := by decide

/-- A valid boundary, two cycles of waiting (an edge among them, which stages nothing), and the reload. -/
theorem witness_DutyInForceAtFirstReloadAfterCommit :
    let k := eight 8 false false false
    let first := inp false true false 25000
    let second := inp false false false 0
    let mid := [inp false true false 26500]
    k.loadOk = false ∧ k.commitReq = false ∧ first.rst = false ∧ first.edgeValid = true ∧ k.FiresAt first.now ∧
    NoReset (second :: mid) ∧ (∀ i ∈ mid, i.pwmReload = false) ∧
    NoneFires (stepFunction Config.ref k first) (second :: mid) ∧
    (inp false false true 0).rst = false ∧ (inp false false true 0).pwmReload = true := by
  refine ⟨rfl, rfl, rfl, rfl, fires_eight false false false, ?_, by decide, ⟨?_, ?_, trivial⟩, rfl, rfl⟩
  · unfold NoReset
    decide
  · exact fun h => absurd h.1 (by decide)
  · intro h
    have hb := h.2.1
    unfold CoreState.BoundaryAt at hb
    revert hb
    decide

/-- Noise: an edge of gap 2100 at cursor 7, then a reload and an edge that completes an invalid frame; and a state with
nothing pending. -/
theorem witness_IdempotentUnderNoise :
    let ins := [inp false true false 19100, inp false true true 60000]
    NoReset ins ∧ NoneFires (eight 7 false false false) ins ∧
    (eight 7 false false false).loadOk = false ∧ (eight 7 false false false).commitReq = false := by
  refine ⟨?_, ⟨fun h => not_fires_without_boundary h.2, ?_, trivial⟩, rfl, rfl⟩
  · unfold NoReset
    decide
  · intro h
    have hv := h.2.2.1
    unfold CoreState.ValidAfter CoreState.slotAfter at hv
    revert hv
    decide

theorem witness_NoDutyBeforeEnoughEdges :
    edgeCycles (List.replicate 7 (inp false true true 1500)) < Config.ref.validCount := by decide

theorem witness_AssemblerTracksLastEdge : 4294967295 < 2 ^ Config.ref.tickW := by decide

end Sys2Proof.Machine.Tests
end

