-- ==== Sys2Proof/Proofs/Outputs.lean ====
section
/-! PROOFS. The packing of `frame_out` (20_memory.md R52), and O28: the outputs are views of state fields
(10_state.md R36). -/

namespace Sys2Proof.Machine

section Packing

variable {w : Nat} (v : BitVec w) (vs : List (BitVec w))

/-- The packing read as bits: the tail above the first slot. -/
theorem packSlots_cons_mod : packSlots w (v :: vs) % 2 ^ w = v.toNat := by
  rw [packSlots, Nat.add_mul_mod_self_left, Nat.mod_eq_of_lt v.isLt]

theorem packSlots_cons_div : packSlots w (v :: vs) / 2 ^ w = packSlots w vs := by
  rw [packSlots, Nat.add_mul_div_left _ _ (Nat.two_pow_pos w), Nat.div_eq_of_lt v.isLt, Nat.zero_add]

/-- The packed slots fit the port, so nothing is cut off there. -/
theorem packSlots_lt : packSlots w vs < 2 ^ (vs.length * w) := by
  induction vs with
  | nil => exact Nat.two_pow_pos _
  | cons v vs ih =>
    rw [List.length_cons, Nat.add_one_mul, Nat.pow_add, ← Nat.div_lt_iff_lt_mul (Nat.two_pow_pos w),
      packSlots_cons_div]
    exact ih

/-- Slot `i` of the packing: drop `i` slots' bits, keep one slot's. -/
theorem packSlots_div_mod (i : Nat) (h : i < vs.length) :
    packSlots w vs / 2 ^ (i * w) % 2 ^ w = vs[i].toNat := by
  induction vs generalizing i with
  | nil => exact absurd h (Nat.not_lt_zero i)
  | cons v vs ih =>
    cases i with
    | zero => simpa using packSlots_cons_mod v vs
    | succ i =>
      have hsplit : 2 ^ ((i + 1) * w) = 2 ^ w * 2 ^ (i * w) := by rw [Nat.add_one_mul, Nat.pow_add, Nat.mul_comm]
      rw [hsplit, ← Nat.div_div_eq_div_mul, packSlots_cons_div, List.getElem_cons_succ]
      exact ih i (Nat.lt_of_succ_lt_succ h)

end Packing

variable {c : Config}

theorem frameOut_toNat (f : Frame c) : (frameOut f).toNat = packSlots c.pwW f.toList := by
  have hfits : packSlots c.pwW f.toList < 2 ^ (c.n * c.pwW) := by simpa using packSlots_lt f.toList
  rw [frameOut, BitVec.toNat_ofNat, Nat.mod_eq_of_lt hfits]

theorem frameOut_extractLsb' (f : Frame c) (i : Nat) (h : i < c.n) :
    (frameOut f).extractLsb' (i * c.pwW) c.pwW = f[i] := by
  apply BitVec.eq_of_toNat_eq
  rw [BitVec.extractLsb'_toNat, frameOut_toNat, Nat.shiftRight_eq_div_pow,
    packSlots_div_mod f.toList i (by simpa using h), Vector.getElem_toList]

theorem outputs_withHidden (k : CoreState c) (t : Tick c) (b : Bool) :
    outputs { k with lastEdge := t, commitReq := b } = outputs k := rfl

/-- Settles O28: six ports are their fields by definition; `frame_out` is by the packing's division lemma. -/
theorem outputsViewStateFields : Obligations.OutputsViewStateFields := by
  intro c k
  exact ⟨rfl, rfl, rfl, rfl, rfl, rfl, frameOut_extractLsb' k.frame, outputs_withHidden k⟩

end Sys2Proof.Machine
end

