-- ==== Sys2Proof/Proofs/OpcodeMap.lean ====
section
/-! PROOFS. O3: the opcode map by match and mask, and the canonical words (30_encoding.md R72). A word is its opcode
field above its tick count (`word_eq_append`), so a test of the word by match and mask is a test of the opcode field. -/

namespace Sys2Proof.Machine

variable {c : Config}

/-! ### Match and mask on the opcode field -/

/-- A match of opcode bits only, under a mask of opcode bits only, never looks at the tick count. -/
theorem and_mask_append_eq_iff (op mask m : Op) (now : Tick c) :
    (op ++ now).toNat &&& mask.toNat * 2 ^ c.tickW = m.toNat * 2 ^ c.tickW ↔ op &&& mask = m := by
  have hshift (o : Op) : o.toNat * 2 ^ c.tickW = (o ++ 0#c.tickW).toNat := by
    rw [toNat_append, BitVec.toNat_zero, Nat.add_zero]
  have hand : (op ++ now) &&& (mask ++ 0#c.tickW) = (op &&& mask) ++ 0#c.tickW := by
    rw [BitVec.and_append, BitVec.and_zero]
  rw [hshift mask, ← BitVec.toNat_and, hand, ← hshift, Nat.mul_left_inj (Nat.two_pow_pos _).ne',
    BitVec.toNat_inj]

/-- Under the mask `7 * 2^TICK_W` the whole opcode field is compared. -/
theorem and_opMask_append_eq_iff (op m : Op) (now : Tick c) :
    (op ++ now).toNat &&& 7 * 2 ^ c.tickW = m.toNat * 2 ^ c.tickW ↔ op = m := by
  have hall : op &&& 0b111 = op := BitVec.and_allOnes
  have hmask := and_mask_append_eq_iff op 0b111 m now
  rwa [hall] at hmask

/-- Under the mask `2^(TICK_W+2)` the bit `rst` alone is tested. -/
theorem and_rstMask_append_eq_iff (op : Op) (now : Tick c) :
    (op ++ now).toNat &&& 2 ^ (c.tickW + 2) = 2 ^ (c.tickW + 2) ↔ op.getLsbD 2 = true := by
  have hbit : op &&& 0b100 = 0b100 ↔ op.getLsbD 2 = true := by revert op; decide
  rw [Nat.pow_add, Nat.mul_comm, ← hbit]
  exact and_mask_append_eq_iff op 0b100 0b100 now

/-- The low `TICK_W` bits of a word are its field `now`. -/
theorem toNat_mod_eq_nowField (w : InputWord c) : w.toNat % 2 ^ c.tickW = (nowField c w).toNat := by
  rw [nowField, BitVec.extractLsb'_toNat, Nat.shiftRight_zero]

/-! ### The decoder by opcode field -/

theorem decode_append_eq_reset_iff (op : Op) (now : Tick c) :
    decode c (op ++ now) = .reset ↔ op.getLsbD 2 = true := by
  rw [decode, rstBit_append]
  split <;> simp_all

/-- An operation's own opcode field above its operand (any tick count, if it has none) decodes to the operation. -/
theorem decode_opOf_append (i : Instr) (now : Tick c) (h : (opOf i).getLsbD 1 = true → operandOf i = now.toNat) :
    decode c (opOf i ++ now) = i := by
  rw [decode, rstBit_append, edgeValidBit_append, pwmReloadBit_append, nowField_append]
  cases i with
  | reset | idle | reload => rfl
  | edge n | edgeReload n => rw [← h (by rw [opOf]; rfl), opOf]; rfl

/-- With `rst = 0` the opcode field is that of the operation decoded: no opcode bit is ignored. -/
theorem opOf_decode_append (op : Op) (now : Tick c) (h : op.getLsbD 2 = false) :
    opOf (decode c (op ++ now)) = op := by
  have hop : op = 0b000 ∨ op = 0b001 ∨ op = 0b010 ∨ op = 0b011 := by
    revert op
    decide
  obtain rfl | rfl | rfl | rfl := hop
  · exact congrArg opOf (decode_opOf_append .idle now nofun)
  · exact congrArg opOf (decode_opOf_append .reload now nofun)
  · exact congrArg opOf (decode_opOf_append (.edge now.toNat) now fun _ => rfl)
  · exact congrArg opOf (decode_opOf_append (.edgeReload now.toNat) now fun _ => rfl)

/-- An operation other than RESET, its operand the word's tick count, is decoded from its opcode field alone. -/
theorem decode_append_eq_iff (op : Op) (i : Instr) (now : Tick c) (hrst : i ≠ .reset)
    (hnow : (opOf i).getLsbD 1 = true → operandOf i = now.toNat) :
    decode c (op ++ now) = i ↔ op = opOf i := by
  constructor
  · rintro rfl
    have hbit : op.getLsbD 2 = false := by simpa [decode_append_eq_reset_iff] using hrst
    exact (opOf_decode_append op now hbit).symm
  · rintro rfl
    exact decode_opOf_append i now hnow

/-- The match and mask row of an operation other than RESET. -/
theorem decode_eq_iff_and_opMask (w : InputWord c) (i : Instr) (hrst : i ≠ .reset)
    (hnow : (opOf i).getLsbD 1 = true → operandOf i = w.toNat % 2 ^ c.tickW) :
    decode c w = i ↔ w.toNat &&& 7 * 2 ^ c.tickW = (opOf i).toNat * 2 ^ c.tickW := by
  rw [toNat_mod_eq_nowField] at hnow
  rw [word_eq_append w, and_opMask_append_eq_iff, decode_append_eq_iff _ i _ hrst hnow]

theorem decode_eq_reset_iff_and_rstMask (w : InputWord c) :
    decode c w = .reset ↔ w.toNat &&& 2 ^ (c.tickW + 2) = 2 ^ (c.tickW + 2) := by
  rw [word_eq_append w, and_rstMask_append_eq_iff, decode_append_eq_reset_iff]

/-! ### The canonical words -/

/-- The canonical word as a number: the opcode field above the operand. -/
theorem encode_toNat (i : Instr) (h : operandOf i < 2 ^ c.tickW) :
    (encode c i).toNat = (opOf i).toNat * 2 ^ c.tickW + operandOf i := by
  rw [encode, toNat_append, BitVec.toNat_ofNat, Nat.mod_eq_of_lt h]

/-- Settles O3: a match and mask of opcode bits compares opcode fields, and the decoder reads an operation off its
opcode field. -/
theorem opcodeMapMatchesMasks : Obligations.OpcodeMapMatchesMasks := by
  intro c
  have h1 : 2 ^ (c.tickW + 1) = 2 * 2 ^ c.tickW := Nat.pow_succ'
  have h2 : 2 ^ (c.tickW + 2) = 4 * 2 ^ c.tickW := by rw [Nat.pow_add, Nat.mul_comm]
  have hpos : 0 < 2 ^ c.tickW := Nat.two_pow_pos _
  refine ⟨fun w => ⟨decode_eq_reset_iff_and_rstMask w, ?_, ?_, ?_, ?_⟩, ?_, ?_, ?_, ?_, ?_⟩
  · simpa [opOf] using decode_eq_iff_and_opMask w .idle nofun nofun
  · simpa [opOf] using decode_eq_iff_and_opMask w .reload nofun nofun
  · simpa [opOf, h1] using decode_eq_iff_and_opMask w (.edge _) nofun fun _ => rfl
  · simpa [opOf] using decode_eq_iff_and_opMask w (.edgeReload _) nofun fun _ => rfl
  · simpa [opOf, operandOf, h2] using encode_toNat .reset hpos
  · simpa [opOf, operandOf] using encode_toNat .idle hpos
  · simpa [opOf, operandOf] using encode_toNat .reload hpos
  · intro now hnow
    simpa [opOf, operandOf, h1] using encode_toNat (.edge now) hnow
  · intro now hnow
    simpa [opOf, operandOf] using encode_toNat (.edgeReload now) hnow

end Sys2Proof.Machine
end

