-- ==== Sys2Proof/Proofs/Elapsed.lean ====
section
/-! PROOFS. O24: ELAPSED is subtraction modulo `2^TICK_W` (40_timestamp.md R91). -/

namespace Sys2Proof.Machine

variable {c : Config} {now last : Tick c}

/-! ### The interval as a number -/

/-- `elapsed_toNat` for any earlier sample, not only the one a core has latched. -/
theorem elapsed_toNat_eq_mod (now last : Tick c) :
    (elapsed now last).toNat = (now.toNat + 2 ^ c.tickW - last.toNat) % 2 ^ c.tickW :=
  elapsed_toNat now { CoreState.reset c with lastEdge := last }

/-- No wrap between the samples: the plain difference. -/
theorem elapsed_toNat_of_le (h : last.toNat ≤ now.toNat) : (elapsed now last).toNat = now.toNat - last.toNat :=
  BitVec.toNat_sub_of_le h

/-- The counter wrapped between the samples: the borrow is worth one period of the counter. -/
theorem elapsed_toNat_of_lt (h : now.toNat < last.toNat) :
    (elapsed now last).toNat = now.toNat + 2 ^ c.tickW - last.toNat := by
  rw [elapsed_toNat_eq_mod, Nat.mod_eq_of_lt]
  have := last.isLt
  omega

/-! ### Corner cases -/

theorem elapsed_self (now : Tick c) : elapsed now now = 0 := BitVec.sub_self now

theorem elapsed_zero (now : Tick c) : elapsed now 0 = now := BitVec.sub_zero now

/-- The shortest interval across a wrap: from the counter's last value to 0 is one tick. -/
theorem zero_elapsed_max : elapsed (0 : Tick c) (BitVec.ofNat _ (2 ^ c.tickW - 1)) = 1 := by
  have hmax : BitVec.ofNat c.tickW (2 ^ c.tickW - 1) = -1#c.tickW := by
    rw [BitVec.neg_one_eq_allOnes, BitVec.allOnes, BitVec.ofNatLT_eq_ofNat]
  calc elapsed (0 : Tick c) (BitVec.ofNat _ (2 ^ c.tickW - 1))
    _ = 0#c.tickW - -1#c.tickW := congrArg (elapsed 0) hmax
    _ = 1#c.tickW := by rw [BitVec.zero_sub, BitVec.neg_neg]

/-- Settles O24: each case of R91's formula, its corner cases, and the worked example by evaluation. -/
theorem elapsedIsModular : Obligations.ElapsedIsModular :=
  ⟨fun _ now last => ⟨elapsed_toNat_eq_mod now last, elapsed_toNat_of_le, elapsed_toNat_of_lt, elapsed_self now,
    elapsed_zero now, zero_elapsed_max⟩, by decide⟩

end Sys2Proof.Machine
end

