-- ==== Sys2Proof/Proofs/EdgeCycle.lean ====
section
/-! PROOFS. The decoder's half of a cycle, field by field, and O16: one EDGE cycle (41_decoder.md R101 to R105). Each
field is read off `edgePhase_cases`, the three outcomes of an edge. -/

namespace Sys2Proof.Machine

variable {c : Config} (now : Tick c) (k : CoreState c)

/-! ### The decoder's half, by outcome -/

/-- What an edge does to the core at a boundary and at none alike. -/
theorem edgePhase_always :
    (edgePhase now k).lastEdge = now ∧ (edgePhase now k).frame = (storedAt now k).frame ∧
    (edgePhase now k).pwmActive = k.pwmActive ∧ (edgePhase now k).loadOk = k.loadOk := by
  obtain ⟨-, he⟩ | ⟨-, -, he⟩ | ⟨_, -, -, -, he⟩ := edgePhase_cases now k <;>
    rw [he] <;> exact ⟨rfl, rfl, rfl, rfl⟩

@[simp] theorem edgePhase_lastEdge : (edgePhase now k).lastEdge = now := (edgePhase_always now k).1
@[simp] theorem edgePhase_frame : (edgePhase now k).frame = (storedAt now k).frame := (edgePhase_always now k).2.1
@[simp] theorem edgePhase_pwmActive : (edgePhase now k).pwmActive = k.pwmActive := (edgePhase_always now k).2.2.1
@[simp] theorem edgePhase_loadOk : (edgePhase now k).loadOk = k.loadOk := (edgePhase_always now k).2.2.2

/-- The frame after an edge, slot by slot, in the spec's integers. -/
theorem storedAt_getElem_toNat (i : Nat) (h : i < c.n) : ((storedAt now k).frame[i]).toNat = k.slotAfter now i h :=
  storeSlot_edge k now i h

variable {now k}

/-- An edge that is no boundary counts its slot. The cursor register holds the count, since it is below `N` here. -/
theorem edgePhase_of_not_boundary (hb : ¬ k.BoundaryAt now) :
    (edgePhase now k).cursor.toNat = k.cursor.toNat + 1 ∧ (edgePhase now k).frameDone = false ∧
    (edgePhase now k).frameValid = k.frameValid := by
  obtain ⟨-, he⟩ | ⟨hb', -⟩ | ⟨-, hb', -⟩ := edgePhase_cases now k
  · have hlt : k.cursor.toNat + 1 < c.n := Nat.lt_of_not_le fun hle => hb (.inr hle)
    rw [he]
    exact ⟨cursorOf_toNat hlt, rfl, rfl⟩
  · exact absurd hb' hb
  · exact absurd hb' hb

/-- A boundary judges the frame after the store, whether or not a duty is written. -/
theorem edgePhase_of_boundary (hb : k.BoundaryAt now) :
    (edgePhase now k).cursor = 0 ∧ (edgePhase now k).frameDone = true ∧
    ((edgePhase now k).frameValid = true ↔ k.ValidAfter now) := by
  obtain ⟨hb', -⟩ | ⟨-, -, he⟩ | ⟨_, -, hvalid, -, he⟩ := edgePhase_cases now k
  · exact absurd hb hb'
  · rw [he]
    exact ⟨rfl, rfl, isValid_edge k now⟩
  · rw [he]
    exact ⟨rfl, rfl, iff_of_true rfl hvalid⟩

/-- Phase 1 stages the duty of the throttle slot after the store. -/
theorem edgePhase_of_fires (hf : k.FiresAt now) :
    (edgePhase now k).commitReq = true ∧
    (edgePhase now k).pwmShadow.toNat = dutyNumber c (k.slotAfter now c.throttleIdx c.throttleIdx_lt_n) := by
  obtain ⟨hb, hvalid, hpwm⟩ := hf
  obtain ⟨hb', -⟩ | ⟨-, hquiet, -⟩ | ⟨hv, -, -, -, he⟩ := edgePhase_cases now k
  · exact absurd hb hb'
  · exact absurd ⟨hvalid, hpwm⟩ hquiet
  · rw [he]
    refine ⟨rfl, ?_⟩
    calc (duty (memRead (storedAt now k).frame (throttleSlot c)) (isValid_throttle hv)).toNat
      _ = dutyNumber c (memRead (storedAt now k).frame (throttleSlot c)).toNat := duty_toNat _ _
      _ = _ := congrArg (dutyNumber c) (storedAt_getElem_toNat now k c.throttleIdx c.throttleIdx_lt_n)

/-- Where phase 1 does not fire, an edge leaves the two-phase write alone. -/
theorem edgePhase_of_not_fires (hf : ¬ k.FiresAt now) :
    (edgePhase now k).commitReq = k.commitReq ∧ (edgePhase now k).pwmShadow = k.pwmShadow := by
  obtain ⟨-, he⟩ | ⟨-, -, he⟩ | ⟨-, hb, hvalid, hpwm, -⟩ := edgePhase_cases now k
  · rw [he]
    exact ⟨rfl, rfl⟩
  · rw [he]
    exact ⟨rfl, rfl⟩
  · exact absurd ⟨hb, hvalid, hpwm⟩ hf

/-! ### The commit phase before it changes nothing an edge reads -/

variable (now k)

@[simp] theorem commitPhase_slotAfter (i : Nat) (h : i < c.n) :
    (commitPhase k).slotAfter now i h = k.slotAfter now i h := rfl
@[simp] theorem commitPhase_boundaryAt : (commitPhase k).BoundaryAt now ↔ k.BoundaryAt now := Iff.rfl
@[simp] theorem commitPhase_validAfter : (commitPhase k).ValidAfter now ↔ k.ValidAfter now := Iff.rfl
@[simp] theorem commitPhase_firesAt : (commitPhase k).FiresAt now ↔ k.FiresAt now := Iff.rfl

/-- Settles O16: the decoder's half by outcome, run on the state after the commit phase. -/
theorem edgeCycleResult : Obligations.EdgeCycleResult := by
  intro s now
  refine ⟨edgePhase now (commitPhase s.core), ?_, edgePhase_lastEdge _ _, fun i h => ?_, fun hb => ?_, fun hb => ?_,
    fun hf => ?_, fun hf => ?_, ?_, ?_⟩
  · rw [exec_edge, nowOperand_toNat]
  · simp only [edgePhase_frame, storedAt_getElem_toNat, commitPhase_slotAfter]
  · exact edgePhase_of_not_boundary ((commitPhase_boundaryAt now s.core).not.mpr hb)
  · simpa using edgePhase_of_boundary ((commitPhase_boundaryAt now s.core).mpr hb)
  · simpa using edgePhase_of_fires ((commitPhase_firesAt now s.core).mpr hf)
  · exact edgePhase_of_not_fires ((commitPhase_firesAt now s.core).not.mpr hf)
  · rw [edgePhase_pwmActive, commitPhase_pwmActive]
  · rw [edgePhase_loadOk, commitPhase_loadOk]

end Sys2Proof.Machine
end

