-- ==== Sys2Proof/Proofs/Validity.lean ====
section
/-! PROOFS. O26: IS_VALID is the range check of the leading `VALID_COUNT` slots (42_validity.md R120, R122). -/

namespace Sys2Proof.Machine

variable {c : Config}

/-- `isValid_iff` with R5's bounds and the slots taken by number. -/
theorem isValid_iff_getElem (f : Frame c) :
    isValid f = true ↔ ∀ (i : Nat) (h : i < c.n), i < c.validCount → 1000 ≤ (f[i]).toNat ∧ (f[i]).toNat ≤ 2000 := by
  rw [isValid_iff, c.pwMin_eq, c.pwMax_eq]
  exact Fin.forall_iff

/-- IS_VALID reads nothing but the leading `VALID_COUNT` slots. -/
theorem isValid_congr {f g : Frame c} (h : ∀ i : Fin c.n, i.val < c.validCount → memRead f i = memRead g i) :
    isValid f = isValid g := by
  rw [Bool.eq_iff_iff, isValid_iff, isValid_iff]
  refine forall_congr' fun i => forall_congr' fun hi => ?_
  rw [h i hi]

/-- A write from slot `VALID_COUNT` on is to a slot IS_VALID does not read. -/
theorem isValid_memWrite_of_validCount_le (f : Frame c) (j : Fin c.n) (v : Slot c) (hj : c.validCount ≤ j.val) :
    isValid (memWrite f j v) = isValid f := by
  refine isValid_congr fun i hi => memRead_memWrite_other f v ?_
  rintro rfl
  exact absurd hi (Nat.not_lt.mpr hj)

/-- Settles O26: the range check slot by slot, and the frame of a write to a slot it does not read. -/
theorem validityChecksLeadingSlots : Obligations.ValidityChecksLeadingSlots :=
  fun _ f => ⟨isValid_iff_getElem f, fun j h v hj => isValid_memWrite_of_validCount_le f ⟨j, h⟩ v hj⟩

end Sys2Proof.Machine
end

