-- ==== Sys2Proof/Proofs/NonResetCycle.lean ====
section
/-! PROOFS. One equation for the four operations with `rst = 0` (44_cycle.md R153, R154): the reload's half where the
operation serves one, the commit phase always, the decoder's half where there is an edge. The PWM side's fields after
the cycle are read off it. -/

namespace Sys2Proof.Machine

variable {c : Config} (i : Instr) (k : CoreState c)

/-- The PWM side of a cycle with `rst = 0`: a reload if the operation serves one, then the commit phase. -/
def pwmSide : CoreState c := commitPhase (if servesReload i then reloadPhase k else k)

/-- The core after a cycle with `rst = 0`: the PWM side, then the decoder's half if there is an edge. -/
def cycleCore : CoreState c :=
  match edgeTick c i with
  | some now => edgePhase now (pwmSide i k)
  | none => pwmSide i k

variable {i}

/-- The tie to the model: every operation but RESET is its `cycleCore`. -/
theorem exec_eq_cycleCore (hi : i ≠ .reset) (s : State) : exec i s = .next (s.withCore (cycleCore i s.core)) := by
  cases i with
  | reset => exact absurd rfl hi
  | idle => exact exec_idle s
  | reload => exact exec_reload s
  | edge now => exact exec_edge s now
  | edgeReload now => exact exec_edgeReload s now

/-- What holds of `cycleCore` holds of the operation's next state. -/
theorem runsTo_of_cycleCore (hi : i ≠ .reset) {s : State} {P : CoreState s.cfg → Prop}
    (h : P (cycleCore i s.core)) : RunsTo i s P :=
  ⟨_, exec_eq_cycleCore hi s, h⟩

theorem ne_reset_of_servesReload (h : servesReload i = true) : i ≠ .reset := by
  rintro rfl
  exact absurd h (by decide)

/-! ### The PWM side, field by field -/

variable (i)

@[simp] theorem pwmSide_pwmShadow : (pwmSide i k).pwmShadow = k.pwmShadow := by
  unfold pwmSide
  cases servesReload i <;> rfl

@[simp] theorem pwmSide_commitReq : (pwmSide i k).commitReq = false := rfl

@[simp] theorem pwmSide_pwmActive :
    (pwmSide i k).pwmActive = if servesReload i = true ∧ k.loadOk = true then k.pwmShadow else k.pwmActive := by
  unfold pwmSide
  cases servesReload i <;> simp

@[simp] theorem pwmSide_loadOk : (pwmSide i k).loadOk = (k.commitReq || !servesReload i && k.loadOk) := by
  unfold pwmSide
  cases servesReload i <;> rfl

/-- The PWM side writes nothing phase 1 reads, so phase 1 fires as it does in the state before the cycle. -/
@[simp] theorem pwmSide_firesAt (now : Tick c) : (pwmSide i k).FiresAt now ↔ k.FiresAt now := by
  unfold pwmSide
  cases servesReload i <;> exact Iff.rfl

@[simp] theorem pwmSide_slotAfter (now : Tick c) (j : Nat) (h : j < c.n) :
    (pwmSide i k).slotAfter now j h = k.slotAfter now j h := by
  unfold pwmSide
  cases servesReload i <;> rfl

/-! ### The whole cycle -/

theorem cycleCore_of_edge {now : Tick c} (h : edgeTick c i = some now) :
    cycleCore i k = edgePhase now (pwmSide i k) := by
  rw [cycleCore, h]

theorem cycleCore_of_no_edge (h : edgeTick c i = none) : cycleCore i k = pwmSide i k := by
  rw [cycleCore, h]

/-- Promotion (43_reencoder.md R136), with or without an edge in the same cycle. -/
@[simp] theorem cycleCore_pwmActive :
    (cycleCore i k).pwmActive = if servesReload i = true ∧ k.loadOk = true then k.pwmShadow else k.pwmActive := by
  cases he : edgeTick c i with
  | none => rw [cycleCore_of_no_edge i k he, pwmSide_pwmActive]
  | some now => rw [cycleCore_of_edge i k he, edgePhase_pwmActive, pwmSide_pwmActive]

/-- The closed form of `load_ok` (43_reencoder.md R140), with or without an edge in the same cycle. -/
@[simp] theorem cycleCore_loadOk : (cycleCore i k).loadOk = (k.commitReq || !servesReload i && k.loadOk) := by
  cases he : edgeTick c i with
  | none => rw [cycleCore_of_no_edge i k he, pwmSide_loadOk]
  | some now => rw [cycleCore_of_edge i k he, edgePhase_loadOk, pwmSide_loadOk]

variable {i k}

/-- Phase 1 (43_reencoder.md R133), with or without a reload in the same cycle. -/
theorem cycleCore_of_fires {now : Tick c} (he : edgeTick c i = some now) (hf : k.FiresAt now) :
    (cycleCore i k).commitReq = true ∧
    (cycleCore i k).pwmShadow.toNat = dutyNumber c (k.slotAfter now c.throttleIdx c.throttleIdx_lt_n) := by
  simpa [cycleCore_of_edge i k he] using edgePhase_of_fires ((pwmSide_firesAt i k now).mpr hf)

/-- A cycle in which phase 1 does not fire clears the request and leaves the shadow (43_reencoder.md R134). -/
theorem cycleCore_of_not_fires (h : ∀ now, edgeTick c i = some now → ¬ k.FiresAt now) :
    (cycleCore i k).commitReq = false ∧ (cycleCore i k).pwmShadow = k.pwmShadow := by
  cases he : edgeTick c i with
  | none =>
    rw [cycleCore_of_no_edge i k he]
    exact ⟨pwmSide_commitReq i k, pwmSide_pwmShadow i k⟩
  | some now =>
    simpa [cycleCore_of_edge i k he] using edgePhase_of_not_fires ((pwmSide_firesAt i k now).not.mpr (h now he))

end Sys2Proof.Machine
end

