-- ==== Sys2Proof/Proofs/ReEncoder.lean ====
section
/-! PROOFS. O15 (RELOAD), O19 (promotion), O20 (`load_ok`) and O21 (the two-phase write): the PWM side of a cycle, read
off `cycleCore` (43_reencoder.md R133 to R137, R140). -/

namespace Sys2Proof.Machine

/-- With no commit pending and none due, a RELOAD cycle changes nothing but `frame_done` (43_reencoder.md R135). -/
theorem reloadCycle_of_nothing_pending {c : Config} {k : CoreState c} (hl : k.loadOk = false)
    (hc : k.commitReq = false) : reloadCycle k = { k with frameDone := false } := by
  simp only [reloadCycle, commitPhase, reloadPhase, hl, hc, Bool.or_false, Bool.false_eq_true, if_false]

/-- Settles O15: the reload's half and the commit phase, field by field. -/
theorem reloadCycleResult : Obligations.ReloadCycleResult := by
  intro s
  refine ⟨reloadCycle s.core, rfl, rfl, rfl, rfl, rfl, rfl, rfl, rfl, fun hl => if_pos hl, fun hl => ?_, fun hc => ?_,
    fun hc => ?_, reloadCycle_of_nothing_pending⟩
  · exact if_neg (Bool.eq_false_iff.mp hl)
  · simp [reloadCycle, hc]
  · simp [reloadCycle, hc]

/-- Settles O19: `pwm_active` after a cycle is one conditional on the state before it. -/
theorem promotionLaw : Obligations.PromotionLaw := by
  intro s i _ hi
  refine runsTo_of_cycleCore hi ⟨fun h => ?_, fun h => ?_⟩
  · rw [cycleCore_pwmActive, if_pos h]
  · rw [cycleCore_pwmActive, if_neg h]

/-- Settles O20: `load_ok` after a cycle is one formula in the state before it; the next reload promotes the shadow
because the commit has set `load_ok`, and keeps `load_ok` only for a commit phase 1 has requested meanwhile. -/
theorem commitBeatsReloadClear : Obligations.CommitBeatsReloadClear := by
  constructor
  · intro s i _ hi
    refine runsTo_of_cycleCore hi ⟨fun hc => ?_, fun hc hr => ?_, fun hc hr => ?_⟩
    · simp [hc]
    · simp [hc, hr]
    · simp [hc, hr]
  · intro s i _ hr hc hl
    have hpending : (cycleCore i s.core).loadOk = true := by simp [hc]
    refine runsTo_of_cycleCore (ne_reset_of_servesReload hr) ⟨by simp [hl], hpending, ?_⟩
    refine runsTo_of_cycleCore (by decide) ⟨?_, ?_⟩
    · exact (cycleCore_pwmActive .reload _).trans (if_pos ⟨rfl, hpending⟩)
    · simp [servesReload]

/-- Settles O21: phase 1 by whether it fires, phase 2 and the reload by the fields they alone write. -/
theorem twoPhaseWrite : Obligations.TwoPhaseWrite := by
  intro s i _ hi
  refine runsTo_of_cycleCore hi ⟨fun now => cycleCore_of_fires, cycleCore_of_not_fires, fun hc => ?_,
    fun hr => ⟨?_, fun hc => ?_⟩, fun hr => ⟨fun hl => ?_, fun hl => ?_, fun hc => ?_⟩⟩
  · simp [hc]
  · simp [hr]
  · simp [hr, hc]
  · simp [hr, hl]
  · simp [hl]
  · simp [hr, hc]

end Sys2Proof.Machine
end

