-- ==== Sys2Proof/Proofs/LogConsumer.lean ====
section
/-! PROOFS. O23: with CONSUMER = LOG the PWM side stays at reset and the Decoder behaves alike (43_reencoder.md R145).
Each part of a cycle commutes with `quietWith .log`: the parts differ in what they do to the PWM side alone. -/

namespace Sys2Proof.Machine

variable {c : Config} (k : CoreState c)

/-- A boundary's actions but the consumer's: the flags and the cursor (41_decoder.md R104). -/
def judged : CoreState c := { k with frameDone := true, frameValid := isValid k.frame, cursor := 0 }

/-- The tie to the model: a boundary judges the frame, then hands a valid one to the consumer. -/
theorem completeFrame_of_valid (h : isValid k.frame = true) : completeFrame k = consume (judged k) h := dif_pos h

theorem completeFrame_of_invalid (h : ¬ isValid k.frame = true) : completeFrame k = judged k := dif_neg h

/-- Whatever the consumer does at a boundary, it does to the PWM side (41_decoder.md R105). -/
theorem quietWith_completeFrame_eq_judged (v : Consumer) : (completeFrame k).quietWith v = (judged k).quietWith v := by
  by_cases h : isValid k.frame = true
  · rw [completeFrame_of_valid k h]
    obtain ⟨-, he⟩ | ⟨-, he⟩ := consume_cases (judged k) h
    · rw [he]
      rfl
    · rw [he]
  · rw [completeFrame_of_invalid k h]

/-- With CONSUMER = LOG there is nothing the consumer does (41_decoder.md R105). -/
theorem completeFrame_of_log (hlog : c.consumer = .log) : completeFrame k = judged k := by
  by_cases h : isValid k.frame = true
  · rw [completeFrame_of_valid k h]
    obtain ⟨hpwm, -⟩ | ⟨-, he⟩ := consume_cases (judged k) h
    · exact absurd (hlog.symm.trans hpwm) (by decide)
    · exact he
  · exact completeFrame_of_invalid k h

theorem quietWith_completeFrame : (completeFrame k).quietWith .log = completeFrame (k.quietWith .log) :=
  calc (completeFrame k).quietWith .log
    _ = (judged k).quietWith .log := quietWith_completeFrame_eq_judged k .log
    _ = judged (k.quietWith .log) := rfl
    _ = completeFrame (k.quietWith .log) := (completeFrame_of_log _ rfl).symm

/-- The decoder's half: the store, then the boundary's actions or the count (41_decoder.md R102 to R104). -/
theorem edgePhase_eq_ite (now : Tick c) :
    edgePhase now k = if boundary c (elapsed now k.lastEdge) (postIncrement k.cursor) then
      completeFrame (storedAt now k)
    else { storedAt now k with frameDone := false, cursor := cursorOf c (postIncrement k.cursor) } := rfl

/-- The decoder's half reads decoder fields alone. -/
theorem quietWith_edgePhase (now : Tick c) :
    (edgePhase now k).quietWith .log = edgePhase (c := c.withConsumer .log) now (k.quietWith .log) := by
  rw [edgePhase_eq_ite, apply_ite (CoreState.quietWith · .log), quietWith_completeFrame]
  rfl

theorem quietWith_pwmSide (i : Instr) : (pwmSide i k).quietWith .log = pwmSide i (k.quietWith .log) := by
  unfold pwmSide
  cases servesReload i <;> rfl

theorem quietWith_cycleCore (i : Instr) : (cycleCore i k).quietWith .log = cycleCore i (k.quietWith .log) := by
  have htick : edgeTick (c.withConsumer .log) i = edgeTick c i := by cases i <;> rfl
  cases he : edgeTick c i with
  | none => rw [cycleCore_of_no_edge i k he, cycleCore_of_no_edge i _ (htick.trans he), quietWith_pwmSide]
  | some now =>
    rw [cycleCore_of_edge i k he, cycleCore_of_edge i _ (htick.trans he), quietWith_edgePhase, quietWith_pwmSide]

/-- Settles O23: RESET gives reset values under both variants, every other operation commutes with `quietWith`. -/
theorem logConsumerDecodesAlike : Obligations.LogConsumerDecodesAlike := by
  intro s i _ t
  have hquiet : reloadCycle t.core = { t.core with frameDone := false } := reloadCycle_of_nothing_pending rfl rfl
  refine ⟨?_, congrArg (fun k => Host.Outcome.next (t.withCore k)) hquiet⟩
  by_cases hi : i = .reset
  · subst hi
    exact ⟨CoreState.reset s.cfg, rfl, rfl⟩
  · refine ⟨cycleCore i s.core, exec_eq_cycleCore hi s, ?_⟩
    rw [exec_eq_cycleCore hi t, quietWith_cycleCore]

end Sys2Proof.Machine
end

