-- ==== Sys2Proof/Proofs/Duty.lean ====
section
/-! PROOFS. O27: DUTY is linear within a tolerance below 1 (43_reencoder.md R130, R131). The register holds the number
DUTY is (`duty_toNat`), so each clause is one about that number. -/

namespace Sys2Proof.Machine

variable (c : Config)

theorem dutyNumber_mul_le (v : Nat) : dutyNumber c v * 1000 ≤ (v - 1000) * c.maxDuty := Nat.div_mul_le_self _ _

theorem lt_dutyNumber_succ_mul (v : Nat) : (v - 1000) * c.maxDuty < (dutyNumber c v + 1) * 1000 :=
  (Nat.div_lt_iff_lt_mul (by decide)).mp (Nat.lt_succ_self _)

theorem dutyNumber_mono {u v : Nat} (h : u ≤ v) : dutyNumber c u ≤ dutyNumber c v :=
  Nat.div_le_div_right (Nat.mul_le_mul_right _ (Nat.sub_le_sub_right h _))

theorem dutyNumber_min : dutyNumber c 1000 = c.minDuty := by
  rw [c.minDuty_eq]
  simp [dutyNumber]

theorem dutyNumber_max : dutyNumber c 2000 = c.maxDuty := Nat.mul_div_cancel_left _ (by decide)

/-- The middle of the range: 500/1000 of `MAX_DUTY` is its half, rounded down. -/
theorem dutyNumber_middle : dutyNumber c 1500 = c.maxDuty / 2 :=
  Nat.mul_div_mul_left c.maxDuty 2 (by decide : 0 < 500)

/-- Settles O27: the register holds `dutyNumber`, a rounded-down quotient. -/
theorem dutyIsLinear : Obligations.DutyIsLinear := by
  intro c v h
  simp only [duty_toNat]
  refine ⟨dutyNumber_mul_le c _, lt_dutyNumber_succ_mul c _, fun hv => ?_, fun hv => ?_, fun hv => ?_,
    fun u _ huv => dutyNumber_mono c huv⟩
  · rw [hv, dutyNumber_min]
  · rw [hv, dutyNumber_max]
  · rw [hv, dutyNumber_middle]

end Sys2Proof.Machine
end

