-- ==== Sys2Proof/Proofs/Cycle.lean ====
section
/-! PROOFS. O13 (RESET), O14 (IDLE) and O17 (EDGE_RELOAD): the operations of 44_cycle.md R150 to R152. -/

namespace Sys2Proof.Machine

variable {c : Config}

/-! ### RESET -/

/-- The bit `rst` alone decides whether a word is RESET (30_encoding.md R72). -/
theorem decode_eq_reset_iff_rstBit (w : InputWord c) : decode c w = .reset ↔ rstBit c w = true := by
  rw [word_eq_append w, decode_append_eq_reset_iff, rstBit_append]

/-- Settles O13: the next state is the reset state, whose fields are R33's; the decoder tests `rst` first. -/
theorem resetCycleClearsEveryField : Obligations.ResetCycleClearsEveryField :=
  ⟨fun s => ⟨CoreState.reset s.cfg, exec_reset s, fun _ _ => Vector.getElem_replicate _, rfl, rfl, rfl, rfl, rfl, rfl,
    rfl, rfl⟩, fun _ w => (decode_eq_reset_iff_rstBit w).mpr⟩

/-! ### IDLE -/

/-- With no commit due and no boundary just passed there is nothing an IDLE cycle changes (44_cycle.md R151). -/
theorem idleCycle_of_nothing_due {k : CoreState c} (hc : k.commitReq = false) (hd : k.frameDone = false) :
    idleCycle k = k := by
  obtain ⟨frame, cursor, lastEdge, shadow, active, loadOk, commitReq, frameDone, frameValid⟩ := k
  obtain rfl : commitReq = false := hc
  obtain rfl : frameDone = false := hd
  rfl

/-- Settles O14: the commit phase, field by field. -/
theorem idleCycleResult : Obligations.IdleCycleResult := by
  intro s
  refine ⟨idleCycle s.core, rfl, rfl, rfl, rfl, rfl, rfl, rfl, rfl, rfl, fun hc => ?_, fun hc => ?_,
    idleCycle_of_nothing_due⟩
  · simp [idleCycle, hc]
  · simp [idleCycle, hc]

/-! ### EDGE_RELOAD -/

/-- A boundary's actions, the consumer's among them, leave `pwm_active` and `load_ok` alone (41_decoder.md R104). -/
theorem completeFrame_with_pwmActive_loadOk (k : CoreState c) (a : Duty c) (l : Bool) :
    completeFrame { k with pwmActive := a, loadOk := l } = { completeFrame k with pwmActive := a, loadOk := l } := by
  by_cases h : isValid k.frame = true
  · rw [completeFrame_of_valid k h, completeFrame_of_valid { k with pwmActive := a, loadOk := l } h]
    unfold consume
    split <;> rfl
  · rw [completeFrame_of_invalid k h, completeFrame_of_invalid { k with pwmActive := a, loadOk := l } h]
    rfl

/-- The decoder's half neither reads nor writes what a reload writes: `pwm_active` and `load_ok` pass through it. -/
theorem edgePhase_with_pwmActive_loadOk (now : Tick c) (k : CoreState c) (a : Duty c) (l : Bool) :
    edgePhase now { k with pwmActive := a, loadOk := l } = { edgePhase now k with pwmActive := a, loadOk := l } := by
  by_cases hb : boundary c (elapsed now k.lastEdge) (postIncrement k.cursor) = true
  · rw [edgePhase_eq_ite, edgePhase_eq_ite, if_pos hb, if_pos hb]
    exact completeFrame_with_pwmActive_loadOk (storedAt now k) a l
  · rw [edgePhase_eq_ite, edgePhase_eq_ite, if_neg hb, if_neg hb]
    rfl

/-- Settles O17: before the decoder's half the EDGE and EDGE_RELOAD cycles differ in `pwm_active` and `load_ok` alone,
and there they hold what RELOAD leaves. -/
theorem edgeReloadIsUnion : Obligations.EdgeReloadIsUnion := by
  intro s now
  refine ⟨edgeReloadCycle now s.core, ?_, edgeCycle now s.core, reloadCycle s.core, ?_, exec_reload s, ?_⟩
  · rw [exec_edgeReload, nowOperand_toNat, edgeReloadCycle]
  · rw [exec_edge, nowOperand_toNat, edgeCycle]
  · exact edgePhase_with_pwmActive_loadOk now (commitPhase s.core) (reloadCycle s.core).pwmActive
      (reloadCycle s.core).loadOk

end Sys2Proof.Machine
end

