-- ==== Sys2Proof/Proofs/Pseudocode.lean ====
section
/-! PROOFS. O45: the operation a word decodes to is STEP, the pseudocode of 44_cycle.md R155. A word with `rst = 0`
decodes to an operation whose `cycleCore` has the pseudocode's two sides: each side is compared once. -/

namespace Sys2Proof.Machine

variable {c : Config}

/-! ### The decoded operation -/

@[simp] theorem inputOf_rst (w : InputWord c) : (inputOf c w).rst = rstBit c w := rfl
@[simp] theorem inputOf_edgeValid (w : InputWord c) : (inputOf c w).edgeValid = edgeValidBit c w := rfl
@[simp] theorem inputOf_pwmReload (w : InputWord c) : (inputOf c w).pwmReload = pwmReloadBit c w := rfl
@[simp] theorem inputOf_now (w : InputWord c) : (inputOf c w).now = nowField c w := rfl

/-- With `rst = 0` the other two bits say whether a reload is served and whether there is an edge, and at what tick. -/
theorem servesReload_edgeTick_decode {w : InputWord c} (h : rstBit c w = false) :
    servesReload (decode c w) = pwmReloadBit c w ∧
    edgeTick c (decode c w) = if edgeValidBit c w then some (nowField c w) else none := by
  rw [decode, h]
  cases edgeValidBit c w <;> cases pwmReloadBit c w <;> simp [servesReload, edgeTick]

/-! ### The PWM side -/

/-- The pseudocode's assignments, the last one to a field winning, are a reload if there is one, then the commit
phase. -/
theorem refPwmSide_eq (k : CoreState c) (inp : InputVector c) :
    refPwmSide k inp = commitPhase (if inp.pwmReload then reloadPhase k else k) := by
  cases hr : inp.pwmReload with
  | false => cases hc : k.commitReq <;> simp [refPwmSide, commitPhase, hr, hc]
  | true => cases hc : k.commitReq <;> cases hl : k.loadOk <;> simp [refPwmSide, commitPhase, reloadPhase, hr, hc, hl]

theorem refPwmSide_inputOf {w : InputWord c} (h : rstBit c w = false) (k : CoreState c) :
    refPwmSide k (inputOf c w) = pwmSide (decode c w) k := by
  rw [refPwmSide_eq, pwmSide, (servesReload_edgeTick_decode h).1, inputOf_pwmReload]

/-! ### The decoder side -/

theorem refValid_eq_isValid (f : Frame c) : refValid c f = isValid f := by
  rw [Bool.eq_iff_iff, isValid_iff, c.pwMin_eq, c.pwMax_eq]
  exact decide_eq_true_iff

/-- A boundary's actions with the duty written as its number: it needs no proof of the range (43_reencoder.md R130). -/
theorem completeFrame_eq_ite (k : CoreState c) :
    completeFrame k = if isValid k.frame && c.consumer == .pwm then
      { judged k with
        pwmShadow := BitVec.ofNat c.dutyW (dutyNumber c (k.frame[c.throttleIdx]'c.throttleIdx_lt_n).toNat)
        commitReq := true }
    else judged k := by
  by_cases h : isValid k.frame = true
  · rw [completeFrame_of_valid k h]
    obtain ⟨hc, he⟩ | ⟨hc, he⟩ := consume_cases (judged k) h
    · rw [he, h, hc]
      rfl
    · rw [he, h, hc]
      rfl
  · rw [completeFrame_of_invalid k h, Bool.eq_false_iff.mpr h]
    rfl

/-- The pseudocode's test `2100 < e ∨ N <= c1` is the boundary test. -/
theorem boundary_iff_elapsedAt (k : CoreState c) (now : Tick c) :
    boundary c (elapsed now k.lastEdge) (postIncrement k.cursor) = true ↔
      2100 < k.elapsedAt now ∨ c.n ≤ postIncrement k.cursor := by
  rw [boundary, Bool.or_eq_true, decide_eq_true_iff, decide_eq_true_iff, c.syncGapThreshold_eq, elapsed_toNat]

/-- The store with the pulse width written in the pseudocode's integers. -/
theorem storedAt_eq (now : Tick c) (k : CoreState c) :
    storedAt now k = { k with
      lastEdge := now
      frame := storeSlot k.frame k.cursor (BitVec.ofNat c.pwW (k.elapsedAt now % 2 ^ c.pwW)) } := by
  rw [← elapsed_toNat, ← pulseWidth_toNat, BitVec.ofNat_toNat, BitVec.setWidth_eq, storedAt]

/-- After the PWM side, which clears `frame_done`, the pseudocode's decoder side is the decoder's half. -/
theorem refDecoderSide_commitPhase (k : CoreState c) (inp : InputVector c) :
    refDecoderSide (commitPhase k) (commitPhase k) inp = edgePhase inp.now (commitPhase k) := by
  rw [edgePhase_eq_ite, completeFrame_eq_ite, storedAt_eq]
  simp only [refDecoderSide, refValid_eq_isValid]
  exact if_congr (boundary_iff_elapsedAt (commitPhase k) inp.now).symm rfl rfl

/-- The decoder side reads no field the PWM side writes, so it may as well read the state after it. -/
theorem refDecoderSide_pwmSide (i : Instr) (k : CoreState c) (inp : InputVector c) :
    refDecoderSide k (pwmSide i k) inp = edgePhase inp.now (pwmSide i k) := by
  unfold pwmSide
  cases servesReload i with
  | false => exact refDecoderSide_commitPhase k inp
  | true => exact refDecoderSide_commitPhase (reloadPhase k) inp

/-! ### The whole cycle -/

/-- The first line of the pseudocode (44_cycle.md R150). -/
theorem stepFunction_of_rst (k : CoreState c) {inp : InputVector c} (h : inp.rst = true) :
    stepFunction c k inp = CoreState.reset c := if_pos h

/-- The pseudocode with `rst = 0`. -/
theorem stepFunction_of_not_rst (k : CoreState c) {inp : InputVector c} (h : inp.rst = false) :
    stepFunction c k inp =
      if inp.edgeValid then refDecoderSide k (refPwmSide k inp) inp else refPwmSide k inp :=
  if_neg (Bool.eq_false_iff.mp h)

/-- With `rst = 0` the cycle of the operation decoded is the pseudocode, side by side. -/
theorem stepFunction_inputOf {w : InputWord c} (h : rstBit c w = false) (k : CoreState c) :
    stepFunction c k (inputOf c w) = cycleCore (decode c w) k := by
  obtain ⟨-, htick⟩ := servesReload_edgeTick_decode h
  rw [stepFunction_of_not_rst k h, refPwmSide_inputOf h, inputOf_edgeValid]
  cases he : edgeValidBit c w with
  | true =>
    rw [he, if_pos rfl] at htick
    rw [if_pos rfl, refDecoderSide_pwmSide, cycleCore_of_edge _ k htick, inputOf_now]
  | false =>
    rw [he, if_neg Bool.false_ne_true] at htick
    rw [if_neg Bool.false_ne_true, cycleCore_of_no_edge _ k htick]

/-- Settles O45: a word with `rst = 1` is RESET and the pseudocode's first line; any other is `stepFunction_inputOf`. -/
theorem execRefinesSpecPseudocode : Obligations.ExecRefinesSpecPseudocode := by
  intro s w
  cases h : rstBit s.cfg w with
  | true => rw [(decode_eq_reset_iff_rstBit w).mpr h, exec_reset, stepFunction_of_rst s.core h]
  | false =>
    have hne : decode s.cfg w ≠ .reset := by simp [decode_eq_reset_iff_rstBit, h]
    rw [exec_eq_cycleCore hne, stepFunction_inputOf h]

end Sys2Proof.Machine
end

