-- ==== Sys2Proof/Proofs/Totality.lean ====
section
/-! PROOFS. O10: the core never stops (60_exceptions.md R170, R172). No meaning ends in anything but the cycle's one
next state, and a meaning replaces the core alone, so the configuration stays (20_memory.md R60). -/

namespace Sys2Proof.Machine

/-- Every instruction, an ill-formed operand included, ends in a next state that differs in the core alone. -/
theorem exec_next_withCore (i : Instr) (s : State) : ∃ k : CoreState s.cfg, exec i s = .next (s.withCore k) := by
  by_cases hi : i = .reset
  · subst hi
    exact ⟨CoreState.reset s.cfg, exec_reset s⟩
  · exact ⟨cycleCore i s.core, exec_eq_cycleCore hi s⟩

/-- A step replaces the core and advances the environment, and does nothing else. -/
theorem step_next_withCore (s : State) :
    ∃ k : CoreState (advance s).cfg, step s = .next ((advance s).withCore k) := by
  rw [step_eq]
  exact exec_next_withCore (decode s.cfg (drivenWord s)) (advance s)

/-- Settles O10: the next state is the one of `step_next_withCore`, whose configuration neither change touches. -/
theorem stepAlwaysHasNextState : Obligations.StepAlwaysHasNextState := by
  intro s
  obtain ⟨k, hstep⟩ := step_next_withCore s
  have hcfg : ((advance s).withCore k).cfg = s.cfg := (withCore_cfg (advance s) k).trans (advance_cfg s)
  exact ⟨(advance s).withCore k, hstep, hcfg⟩

end Sys2Proof.Machine
end

