-- ==== Sys2Proof/Proofs/Encoding.lean ====
section
/-! PROOFS. O1, O2, O4, O5, O6: format V (30_encoding.md R71 to R77). A word is its opcode field above its tick count
(`word_eq_append`), so each statement is one about the opcode field. -/

namespace Sys2Proof.Machine

variable {c : Config}

/-! ### The round trips -/

theorem operandOf_lt_of_wellFormed {i : Instr} (h : i.WellFormed c) : operandOf i < 2 ^ c.tickW := by
  cases i with
  | reset | idle | reload => exact Nat.two_pow_pos _
  | edge now | edgeReload now => exact of_decide_eq_true h

/-- Settles O1: the canonical word is the operation's own opcode field above its operand, which the field `now`
holds whole. -/
theorem decodeEncodeRoundTrip : Obligations.DecodeEncodeRoundTrip := by
  intro c i h
  refine decode_opOf_append i _ fun _ => ?_
  rw [BitVec.toNat_ofNat, Nat.mod_eq_of_lt (operandOf_lt_of_wellFormed h)]

/-- With `rst = 0` the operand of the operation decoded is the field `now` where there is an edge, else none. -/
theorem operandOf_decode {w : InputWord c} (h : rstBit c w = false) :
    operandOf (decode c w) = if edgeValidBit c w then (nowField c w).toNat else 0 := by
  rw [decode, h]
  cases edgeValidBit c w <;> cases pwmReloadBit c w <;> rfl

/-- With `rst = 0` re-encoding keeps the opcode field, and the field `now` where there is an edge. -/
theorem encode_decode_append {op : Op} (now : Tick c) (h : op.getLsbD 2 = false) :
    encode c (decode c (op ++ now)) = op ++ (if op.getLsbD 1 then now else 0) := by
  rw [encode, opOf_decode_append op now h, operandOf_decode (by rw [rstBit_append, h]), edgeValidBit_append,
    nowField_append]
  cases op.getLsbD 1 <;> simp

/-- Settles O2: the opcode field survives re-encoding unless `rst = 1`, where one bit of it does. -/
theorem encodeDecodeClearsIgnoredBits : Obligations.EncodeDecodeClearsIgnoredBits := by
  intro c w
  refine ⟨fun hr => ?_, ?_⟩
  · have hw : decode c w = .reset := (decode_eq_reset_iff_rstBit w).mpr hr
    have hword : (encode c .reset).toNat = 2 ^ (c.tickW + 2) := (opcodeMapMatchesMasks c).2.1
    rw [hw, hword, (decode_eq_reset_iff_and_rstMask w).mp hw]
  · rw [word_eq_append w, rstBit_append, edgeValidBit_append]
    generalize w.extractLsb' c.tickW 3 = op
    generalize nowField c w = now
    refine ⟨fun hr he => ?_, fun hr he => ?_⟩
    · rw [encode_decode_append now hr, he, if_pos rfl]
    · rw [encode_decode_append now hr, he, (and_opMask_append_eq_iff op op now).mpr rfl, toNat_append]
      simp

/-! ### One row a word -/

/-- The mnemonics tell the operations apart as the opcode fields do. -/
theorem mnemonic_eq_iff_opOf_eq (i j : Instr) : i.mnemonic = j.mnemonic ↔ opOf i = opOf j := by
  cases i <;> cases j <;> simp [Instr.mnemonic, opOf]

/-- Only RESET has an opcode field with `rst = 1`, so any other field is decoded to from itself alone. -/
theorem opOf_decode_append_eq_iff {m : Op} (op : Op) (now : Tick c) (hm : m.getLsbD 2 = false) :
    opOf (decode c (op ++ now)) = m ↔ op = m := by
  cases hr : op.getLsbD 2 with
  | false => rw [opOf_decode_append op now hr]
  | true =>
    rw [(decode_append_eq_reset_iff op now).mpr hr]
    exact iff_of_false (fun h => by simp [← h, opOf] at hm) (fun h => Bool.false_ne_true (hm.symm.trans (h ▸ hr)))

/-- The row of an operation other than RESET tests the whole opcode field. -/
theorem and_opMask_eq_iff_mnemonic (w : InputWord c) {j : Instr} (hj : (opOf j).getLsbD 2 = false) :
    w.toNat &&& 7 * 2 ^ c.tickW = (opOf j).toNat * 2 ^ c.tickW ↔ (decode c w).mnemonic = j.mnemonic := by
  rw [mnemonic_eq_iff_opOf_eq, word_eq_append w, and_opMask_append_eq_iff, opOf_decode_append_eq_iff _ _ hj]

theorem and_rstMask_eq_iff_mnemonic (w : InputWord c) :
    w.toNat &&& 2 ^ (c.tickW + 2) = 2 ^ (c.tickW + 2) ↔ (decode c w).mnemonic = "RESET" := by
  rw [← decode_eq_reset_iff_and_rstMask]
  cases decode c w <;> simp [Instr.mnemonic]

/-- A row matches the words that decode to its operation, and no others. -/
theorem matchesWord_iff_mnemonic (w : InputWord c) {r : OpRow} (hr : r ∈ opcodeTable c.tickW) :
    r.matchesWord w.toNat = true ↔ (decode c w).mnemonic = r.mnemonic := by
  rw [OpRow.matchesWord, decide_eq_true_iff]
  simp only [opcodeTable, List.mem_cons, List.not_mem_nil, or_false] at hr
  obtain rfl | rfl | rfl | rfl | rfl := hr
  · exact and_rstMask_eq_iff_mnemonic w
  · simpa [opOf, Instr.mnemonic] using and_opMask_eq_iff_mnemonic w (j := .idle) rfl
  · simpa [opOf, Instr.mnemonic] using and_opMask_eq_iff_mnemonic w (j := .reload) rfl
  · simpa [opOf, Instr.mnemonic, Nat.pow_succ'] using and_opMask_eq_iff_mnemonic w (j := .edge 0) rfl
  · simpa [opOf, Instr.mnemonic] using and_opMask_eq_iff_mnemonic w (j := .edgeReload 0) rfl

/-- The table has a row for every operation. -/
theorem exists_row_of_instr (t : Nat) (i : Instr) : ∃ r ∈ opcodeTable t, i.mnemonic = r.mnemonic := by
  cases i <;> simp [opcodeTable, Instr.mnemonic]

/-- No two rows share a mnemonic. -/
theorem row_eq_of_mnemonic_eq {t : Nat} {r r' : OpRow} (hr : r ∈ opcodeTable t) (hr' : r' ∈ opcodeTable t)
    (h : r.mnemonic = r'.mnemonic) : r = r' := by
  have hdistinct : ((opcodeTable t).map OpRow.mnemonic).Nodup := by simp [opcodeTable]
  exact List.inj_on_of_nodup_map hdistinct hr hr' h

/-- Settles O4: a row matches the words of its operation, and the rows are one an operation. -/
theorem everyWordMatchesOneRow : Obligations.EveryWordMatchesOneRow := by
  intro c w
  obtain ⟨r, hr, hmn⟩ := exists_row_of_instr c.tickW (decode c w)
  refine ⟨r, hr, (matchesWord_iff_mnemonic w hr).mpr hmn, hmn, fun r' hr' hmatch => ?_⟩
  have hmn' := (matchesWord_iff_mnemonic w hr').mp hmatch
  exact row_eq_of_mnemonic_eq hr' hr (hmn'.symm.trans hmn)

/-! ### How many words an operation has -/

/-- The opcode field of a number that fits the format is its part above the field `now`. -/
theorem opField_ofNat_toNat {n : Nat} (h : n < 2 ^ (3 + c.tickW)) :
    ((BitVec.ofNat (3 + c.tickW) n).extractLsb' c.tickW 3).toNat = n / 2 ^ c.tickW := by
  have hop : n / 2 ^ c.tickW < 2 ^ 3 := by rwa [Nat.div_lt_iff_lt_mul (Nat.two_pow_pos _), ← Nat.pow_add]
  rw [BitVec.extractLsb'_toNat, BitVec.toNat_ofNat, Nat.mod_eq_of_lt h, Nat.shiftRight_eq_div_pow, Nat.mod_eq_of_lt hop]

/-- An operation whose opcode fields are those from `lo` below `hi` has `hi - lo` times `2^TICK_W` words. -/
theorem card_words_of_opField {i : Instr} {lo hi : Nat} (hhi : hi ≤ 8)
    (h : ∀ (op : Op) (now : Tick c), decode c (op ++ now) = i ↔ lo ≤ op.toNat ∧ op.toNat < hi) :
    ((Finset.range (2 ^ (3 + c.tickW))).filter fun n => decode c (BitVec.ofNat _ n) = i).card =
      (hi - lo) * 2 ^ c.tickW := by
  have hpos : 0 < 2 ^ c.tickW := Nat.two_pow_pos _
  have hset : ((Finset.range (2 ^ (3 + c.tickW))).filter fun n => decode c (BitVec.ofNat _ n) = i) =
      Finset.Ico (lo * 2 ^ c.tickW) (hi * 2 ^ c.tickW) := by
    ext n
    have hfits : n < hi * 2 ^ c.tickW → n < 2 ^ (3 + c.tickW) := fun hn =>
      hn.trans_le ((Nat.mul_le_mul_right _ hhi).trans_eq (Nat.pow_add 2 3 c.tickW).symm)
    have hword (hn : n < 2 ^ (3 + c.tickW)) :
        decode c (BitVec.ofNat _ n) = i ↔ lo * 2 ^ c.tickW ≤ n ∧ n < hi * 2 ^ c.tickW := by
      rw [word_eq_append (BitVec.ofNat _ n), h, opField_ofNat_toNat hn, Nat.le_div_iff_mul_le hpos,
        Nat.div_lt_iff_lt_mul hpos]
    rw [Finset.mem_filter, Finset.mem_range, Finset.mem_Ico]
    exact ⟨fun hn => (hword hn.1).mp hn.2, fun hn => ⟨hfits hn.2, (hword (hfits hn.2)).mpr hn⟩⟩
  rw [hset, Nat.card_Ico, ← Nat.sub_mul]

/-- Settles O5: RESET has the opcode fields 4 to 7, IDLE the field 0 and RELOAD the field 1. -/
theorem redundantWordCounts : Obligations.RedundantWordCounts := by
  intro c
  have hreset (op : Op) : op.getLsbD 2 = true ↔ 4 ≤ op.toNat ∧ op.toNat < 8 := by revert op; decide
  have hidle (op : Op) : op = 0 ↔ 0 ≤ op.toNat ∧ op.toNat < 1 := by revert op; decide
  have hreload (op : Op) : op = 1 ↔ 1 ≤ op.toNat ∧ op.toNat < 2 := by revert op; decide
  refine ⟨?_, ?_, ?_⟩
  · exact card_words_of_opField le_rfl fun op now => (decode_append_eq_reset_iff op now).trans (hreset op)
  · simpa using card_words_of_opField (c := c) (by decide : 1 ≤ 8) fun op now =>
      (decode_append_eq_iff op .idle now nofun nofun).trans (hidle op)
  · simpa using card_words_of_opField (c := c) (by decide : 2 ≤ 8) fun op now =>
      (decode_append_eq_iff op .reload now nofun nofun).trans (hreload op)

/-- Settles O6: the decoder evaluated on the five words. -/
theorem sampleWordsDecode : Obligations.SampleWordsDecode := by
  unfold Obligations.SampleWordsDecode
  decide

end Sys2Proof.Machine
end

