-- ==== Sys2Proof/Proofs/Step.lean ====
section
/-! PROOFS. O7, O8, O9, O11 and O36: one step is the operation of the driven word (00_scope.md R8, 30_encoding.md R70;
log 1), and a run of the machine is STEP iterated (44_cycle.md R158). -/

namespace Sys2Proof.Machine

/-! ### The driven word -/

/-- A step with a script drives its first word. -/
theorem step_cons (s : State) (w : InputWord s.cfg) (rest : List (InputWord s.cfg)) :
    step { s with stimulus := w :: rest } =
      exec (decode s.cfg w) { s with stimulus := rest, cycle := s.cycle + 1 } := rfl

/-- A step without a script drives the free word of the cycle (log 1). -/
theorem step_nil (s : State) :
    step { s with stimulus := [] } =
      exec (decode s.cfg (Config.freeInput (3 + s.cfg.tickW) s.cycle))
        { s with stimulus := [], cycle := s.cycle + 1 } := rfl

/-- Settles O8: `step_cons` and `step_nil`, on a state whose script is known. -/
theorem stepRunsDrivenWord : Obligations.StepRunsDrivenWord := by
  constructor
  · intro s w rest h
    rw [← step_cons, ← h]
  · intro s h
    have hstep := step_nil s
    rwa [← h] at hstep

/-- With `rst` and `edge_valid` 0 the bit `pwm_reload` alone decides the operation. -/
theorem decode_of_no_edge {c : Config} {w : InputWord c} (hr : rstBit c w = false) (he : edgeValidBit c w = false) :
    decode c w = if pwmReloadBit c w then .reload else .idle := by
  rw [decode, hr, he]
  cases pwmReloadBit c w <;> rfl

/-- Settles O7: words that differ in ignored bits alone decode to one operation. -/
theorem ignoredBitsHaveNoEffect : Obligations.IgnoredBitsHaveNoEffect := by
  intro s w w' rest h
  have hsame : decode s.cfg w = decode s.cfg w' := by
    obtain ⟨hr, hr'⟩ | ⟨hr, hr', he, he', hreload⟩ := h
    · rw [(decode_eq_reset_iff_rstBit w).mpr hr, (decode_eq_reset_iff_rstBit w').mpr hr']
    · rw [decode_of_no_edge hr he, decode_of_no_edge hr' he', hreload]
  rw [step_cons, step_cons, hsame]

/-! ### The word placed from outside (log 8) -/

/-- The step after a placement drives the word placed. -/
theorem step_withFetchWord (s : State) (nbits w : Nat) :
    step (s.withFetchWord nbits w) =
      exec (decode s.cfg (BitVec.ofNat (3 + s.cfg.tickW) (w % 2 ^ nbits))) { s with cycle := s.cycle + 1 } := rfl

/-- A number that `decodeTableWord` accepts is a word of REF, and the instruction is the one it decodes to. -/
theorem decode_of_decodeTableWord {nbits w : Nat} {i : Instr} (h : decodeTableWord nbits w = some i) :
    decode Config.ref (BitVec.ofNat (3 + Config.ref.tickW) (w % 2 ^ nbits)) = i := by
  by_cases hfits : w % 2 ^ nbits < 2 ^ (3 + Config.ref.tickW)
  · rw [decodeTableWord, decodeNat, if_pos hfits] at h
    exact Option.some.inj h
  · rw [decodeTableWord, decodeNat, if_neg hfits] at h
    cases h

/-- Settles O9: the placement keeps a word's own bits, and `decodeTableWord` reads them as the step does. -/
theorem fetchWordRunsNext : Obligations.FetchWordRunsNext := by
  constructor
  · intro s w
    rw [step_withFetchWord, Nat.mod_eq_of_lt w.isLt, BitVec.ofNat_toNat, BitVec.setWidth_eq]
  · intro nbits w i h
    rw [step_withFetchWord]
    exact congrArg (exec · { State.reset with cycle := 1 }) (decode_of_decodeTableWord h)

/-! ### STEP -/

/-- Settles O11: the operation of the driven word is STEP (`execRefinesSpecPseudocode`), in the state after the drive. -/
theorem stepRefinesSpecPseudocode : Obligations.StepRefinesSpecPseudocode :=
  fun s => execRefinesSpecPseudocode (advance s) (drivenWord s)

/-- Settles O36: by induction on the words, each step being STEP of the first of them. -/
theorem machineRunIteratesStep : Obligations.MachineRunIteratesStep := by
  rintro ⟨c, k, _, n⟩ (ws rest : List (InputWord c))
  induction ws generalizing k n with
  | nil => rfl
  | cons w ws ih =>
    have hstep := stepRefinesSpecPseudocode ⟨c, k, w :: (ws ++ rest), n⟩
    rw [List.length_cons, List.cons_append, core_run_succ hstep]
    refine (ih (stepFunction c k (inputOf c w)) (n + 1)).trans ?_
    rw [List.map_cons, runInputs_cons, Nat.add_right_comm n 1, Nat.add_assoc n]

end Sys2Proof.Machine
end

