-- ==== Sys2Proof/Proofs/DecoderSide.lean ====
section
/-! PROOFS. The decoder's fields after a cycle with `rst = 0`, with or without a reload in it (44_cycle.md R153), and
what is read off them at once: O18 (the frame of every operation) and O22 (a shadow write while a commit is pending). -/

namespace Sys2Proof.Machine

variable {c : Config} (i : Instr) (k : CoreState c)

/-! ### The PWM side writes no decoder field but `frame_done`, which it clears -/

@[simp] theorem pwmSide_frame : (pwmSide i k).frame = k.frame := by
  unfold pwmSide
  cases servesReload i <;> rfl

@[simp] theorem pwmSide_cursor : (pwmSide i k).cursor = k.cursor := by
  unfold pwmSide
  cases servesReload i <;> rfl

@[simp] theorem pwmSide_lastEdge : (pwmSide i k).lastEdge = k.lastEdge := by
  unfold pwmSide
  cases servesReload i <;> rfl

@[simp] theorem pwmSide_frameValid : (pwmSide i k).frameValid = k.frameValid := by
  unfold pwmSide
  cases servesReload i <;> rfl

@[simp] theorem pwmSide_frameDone : (pwmSide i k).frameDone = false := rfl

@[simp] theorem pwmSide_boundaryAt (now : Tick c) : (pwmSide i k).BoundaryAt now ↔ k.BoundaryAt now := by
  unfold pwmSide
  cases servesReload i <;> exact Iff.rfl

@[simp] theorem pwmSide_validAfter (now : Tick c) : (pwmSide i k).ValidAfter now ↔ k.ValidAfter now := by
  unfold pwmSide
  cases servesReload i <;> exact Iff.rfl

variable {i k} {now : Tick c}

/-! ### A cycle without an edge -/

theorem cycleCore_without_edge (he : edgeTick c i = none) :
    (cycleCore i k).frame = k.frame ∧ (cycleCore i k).cursor = k.cursor ∧ (cycleCore i k).lastEdge = k.lastEdge ∧
    (cycleCore i k).frameValid = k.frameValid ∧ (cycleCore i k).frameDone = false := by
  simp [cycleCore_of_no_edge i k he]

/-- Phase 1 takes an edge. -/
theorem cycleCore_quiet_without_edge (he : edgeTick c i = none) :
    (cycleCore i k).commitReq = false ∧ (cycleCore i k).pwmShadow = k.pwmShadow :=
  cycleCore_of_not_fires fun now he' => by simp [he] at he'

/-! ### A cycle with an edge -/

/-- Phase 1 does not fire at the one edge there is. -/
theorem cycleCore_of_edge_not_fires (he : edgeTick c i = some now) (hf : ¬ k.FiresAt now) :
    (cycleCore i k).commitReq = false ∧ (cycleCore i k).pwmShadow = k.pwmShadow :=
  cycleCore_of_not_fires fun now' he' => by rwa [← Option.some.inj (he.symm.trans he')]

theorem cycleCore_lastEdge (he : edgeTick c i = some now) : (cycleCore i k).lastEdge = now := by
  rw [cycleCore_of_edge i k he, edgePhase_lastEdge]

/-- The frame, slot by slot. -/
theorem cycleCore_slot (he : edgeTick c i = some now) (j : Nat) (h : j < c.n) :
    ((cycleCore i k).frame[j]).toNat = k.slotAfter now j h := by
  simp only [cycleCore_of_edge i k he, edgePhase_frame, storedAt_getElem_toNat, pwmSide_slotAfter]

theorem cycleCore_of_not_boundary (he : edgeTick c i = some now) (hb : ¬ k.BoundaryAt now) :
    (cycleCore i k).cursor.toNat = k.cursor.toNat + 1 ∧ (cycleCore i k).frameDone = false ∧
    (cycleCore i k).frameValid = k.frameValid := by
  simpa [cycleCore_of_edge i k he] using edgePhase_of_not_boundary ((pwmSide_boundaryAt i k now).not.mpr hb)

theorem cycleCore_of_boundary (he : edgeTick c i = some now) (hb : k.BoundaryAt now) :
    (cycleCore i k).cursor = 0 ∧ (cycleCore i k).frameDone = true ∧
    ((cycleCore i k).frameValid = true ↔ k.ValidAfter now) := by
  simpa [cycleCore_of_edge i k he] using edgePhase_of_boundary ((pwmSide_boundaryAt i k now).mpr hb)

/-- IS_VALID of the frame after the cycle is IS_VALID after the store. -/
theorem isValid_cycleCore (he : edgeTick c i = some now) :
    isValid (cycleCore i k).frame = true ↔ k.ValidAfter now := by
  simp only [isValid_iff_getElem, cycleCore_slot he, CoreState.ValidAfter]

/-! ### Flags that only an edge sets -/

/-- `frame_done` is 1 only after a boundary (10_state.md R29). -/
theorem cycleCore_frameDone_iff :
    (cycleCore i k).frameDone = true ↔ ∃ now, edgeTick c i = some now ∧ k.BoundaryAt now := by
  cases he : edgeTick c i with
  | none => simp [cycleCore_without_edge he]
  | some now =>
    by_cases hb : k.BoundaryAt now
    · simp [cycleCore_of_boundary he hb, hb]
    · simp [cycleCore_of_not_boundary he hb, hb]

/-- `frame_valid` changes at a boundary alone (10_state.md R30). -/
theorem cycleCore_frameValid_of_no_boundary (h : ∀ now, edgeTick c i = some now → ¬ k.BoundaryAt now) :
    (cycleCore i k).frameValid = k.frameValid := by
  cases he : edgeTick c i with
  | none => simp [cycleCore_without_edge he]
  | some now => exact (cycleCore_of_not_boundary he (h now he)).2.2

/-- `commit_req` is 1 only after phase 1 (10_state.md R28). -/
theorem cycleCore_commitReq_iff :
    (cycleCore i k).commitReq = true ↔ ∃ now, edgeTick c i = some now ∧ k.FiresAt now := by
  by_cases h : ∃ now, edgeTick c i = some now ∧ k.FiresAt now
  · obtain ⟨now, he, hf⟩ := h
    exact iff_of_true (cycleCore_of_fires he hf).1 ⟨now, he, hf⟩
  · have hnone : ∀ now, edgeTick c i = some now → ¬ k.FiresAt now := fun now he hf => h ⟨now, he, hf⟩
    simp [(cycleCore_of_not_fires hnone).1, h]

/-- A slot the cursor does not select is never written (41_decoder.md R102). -/
theorem cycleCore_slot_of_ne_cursor {j : Nat} (h : j < c.n) (hne : j ≠ k.cursor.toNat) :
    (cycleCore i k).frame[j] = k.frame[j] := by
  cases he : edgeTick c i with
  | none => simp [cycleCore_without_edge he]
  | some now =>
    apply BitVec.eq_of_toNat_eq
    rw [cycleCore_slot he j h, slotAfter_other k now j h hne]

/-! ### The operand of EDGE -/

@[simp] theorem edgeTick_edge_toNat (now : Tick c) : edgeTick c (.edge now.toNat) = some now := by
  rw [edgeTick, BitVec.ofNat_toNat, BitVec.setWidth_eq]

/-- What holds of an EDGE cycle of the core holds of EDGE's next state. -/
theorem runsTo_edge {s : State} {n : Nat} {P : CoreState s.cfg → Prop} (h : P (cycleCore (.edge n) s.core)) :
    RunsTo (.edge n) s P := runsTo_of_cycleCore (i := .edge n) nofun h

/-- Settles O18: each field by the one thing that writes it. -/
theorem writeOwnership : Obligations.WriteOwnership := by
  intro s i _
  by_cases hi : i = .reset
  · subst hi
    exact ⟨CoreState.reset s.cfg, exec_reset s, fun h => absurd rfl h⟩
  · refine runsTo_of_cycleCore hi fun _ => ⟨fun he => ?_, fun j h => cycleCore_slot_of_ne_cursor h,
      fun now he => ⟨fun hb => ?_, fun hf => ?_⟩, fun h => ?_, fun hr hc => ?_⟩
    · obtain ⟨hframe, hcursor, hlast, hvalid, -⟩ := cycleCore_without_edge (k := s.core) he
      exact ⟨hframe, hcursor, hlast, hvalid, (cycleCore_quiet_without_edge he).2⟩
    · exact (cycleCore_of_not_boundary he hb).2.2
    · exact (cycleCore_of_edge_not_fires he hf).2
    · rw [cycleCore_pwmActive, if_neg]
      rintro ⟨hr, hl⟩
      simp [hr, hl] at h
    · simp [hr, hc]

/-- Settles O22: phase 1 writes the shadow and the request, and touches neither the pending commit nor the duty in
force; the reload then promotes the newer shadow, and the request keeps `load_ok` set. -/
theorem shadowWriteWhilePending : Obligations.ShadowWriteWhilePending := by
  intro s now hl hf
  obtain ⟨hreq, hshadow⟩ := cycleCore_of_fires (edgeTick_edge_toNat now) hf
  have hpending : (cycleCore (.edge now.toNat) s.core).loadOk = true := by simp [hl, servesReload]
  refine runsTo_edge ⟨hshadow, hpending, hreq, ?_, runsTo_of_cycleCore (i := .reload) nofun ⟨?_, ?_⟩⟩
  · simp [servesReload]
  · exact (cycleCore_pwmActive .reload _).trans (if_pos ⟨rfl, hpending⟩)
  · simp [hreq]

end Sys2Proof.Machine
end

