-- ==== Sys2Proof/Proofs/InputVectors.lean ====
section
/-! PROOFS. STEP of an input vector with `rst = 0` is the cycle of one of the four operations, so what the cycle does
to each field holds of STEP; and O12, the next-state equations (44_cycle.md R153). -/

namespace Sys2Proof.Machine

variable {c : Config}

/-- The operation of a cycle with `rst = 0` (30_encoding.md R72). -/
def cycleInstr (inp : InputVector c) : Instr :=
  match inp.edgeValid, inp.pwmReload with
  | false, false => .idle
  | false, true => .reload
  | true, false => .edge inp.now.toNat
  | true, true => .edgeReload inp.now.toNat

variable {inp : InputVector c}

@[simp] theorem servesReload_cycleInstr (inp : InputVector c) : servesReload (cycleInstr inp) = inp.pwmReload := by
  unfold cycleInstr
  cases inp.edgeValid <;> cases inp.pwmReload <;> rfl

theorem edgeTick_cycleInstr (inp : InputVector c) :
    edgeTick c (cycleInstr inp) = if inp.edgeValid then some inp.now else none := by
  unfold cycleInstr
  cases inp.edgeValid <;> cases inp.pwmReload <;> simp [edgeTick]

theorem edgeTick_cycleInstr_of_edge (h : inp.edgeValid = true) : edgeTick c (cycleInstr inp) = some inp.now := by
  rw [edgeTick_cycleInstr, if_pos h]

theorem edgeTick_cycleInstr_of_no_edge (h : inp.edgeValid = false) : edgeTick c (cycleInstr inp) = none := by
  rw [edgeTick_cycleInstr, h, if_neg Bool.false_ne_true]

/-- A property of the tick of the cycle's edge, where there is one. -/
theorem exists_edgeTick_cycleInstr_iff (P : Tick c → Prop) :
    (∃ now, edgeTick c (cycleInstr inp) = some now ∧ P now) ↔ inp.edgeValid = true ∧ P inp.now := by
  rw [edgeTick_cycleInstr]
  cases inp.edgeValid <;> simp

/-- No edge of the cycle has a property its edge, if any, does not have. -/
theorem edgeTick_cycleInstr_not {P : Tick c → Prop} (h : ¬ (inp.edgeValid = true ∧ P inp.now)) (now : Tick c)
    (he : edgeTick c (cycleInstr inp) = some now) : ¬ P now :=
  fun hp => h ((exists_edgeTick_cycleInstr_iff P).mp ⟨now, he, hp⟩)

/-- The tie to the model: STEP with `rst = 0`. -/
theorem stepFunction_eq_cycleCore (k : CoreState c) (h : inp.rst = false) :
    stepFunction c k inp = cycleCore (cycleInstr inp) k := by
  have hpwm : refPwmSide k inp = pwmSide (cycleInstr inp) k := by rw [refPwmSide_eq, pwmSide, servesReload_cycleInstr]
  rw [stepFunction_of_not_rst k h, hpwm]
  cases he : inp.edgeValid with
  | true => rw [if_pos rfl, refDecoderSide_pwmSide, cycleCore_of_edge _ k (edgeTick_cycleInstr_of_edge he)]
  | false => rw [if_neg Bool.false_ne_true, cycleCore_of_no_edge _ k (edgeTick_cycleInstr_of_no_edge he)]

/-- `last_edge` after a cycle (41_decoder.md R101). -/
theorem stepFunction_lastEdge (k : CoreState c) (h : inp.rst = false) :
    (stepFunction c k inp).lastEdge = if inp.edgeValid then inp.now else k.lastEdge := by
  rw [stepFunction_eq_cycleCore k h]
  cases he : inp.edgeValid with
  | true => simp [cycleCore_lastEdge (edgeTick_cycleInstr_of_edge he)]
  | false => simp [cycleCore_without_edge (edgeTick_cycleInstr_of_no_edge he)]

/-- The frame after a cycle, slot by slot (41_decoder.md R102). -/
theorem stepFunction_slot (k : CoreState c) (h : inp.rst = false) (i : Nat) (hi : i < c.n) :
    ((stepFunction c k inp).frame[i]).toNat =
      if inp.edgeValid then k.slotAfter inp.now i hi else (k.frame[i]).toNat := by
  simp only [stepFunction_eq_cycleCore k h]
  cases he : inp.edgeValid with
  | true => simp [cycleCore_slot (edgeTick_cycleInstr_of_edge he)]
  | false => simp [cycleCore_without_edge (edgeTick_cycleInstr_of_no_edge he)]

/-- Settles O12: every row is a field of `cycleCore`. -/
theorem pseudocodeMeetsFieldEquations : Obligations.PseudocodeMeetsFieldEquations := by
  intro c k inp h
  have hlast := stepFunction_lastEdge k h
  have hslot := stepFunction_slot k h
  rw [stepFunction_eq_cycleCore k h] at hlast hslot ⊢
  refine ⟨hlast, hslot, fun he => ?_, fun he hb => ?_, fun he hb => ?_, ?_, fun ⟨he, hb⟩ => ?_, fun hb => ?_,
    fun ⟨he, hf⟩ => ?_, fun hf => ?_, ?_, ?_, ?_⟩
  · exact (cycleCore_without_edge (edgeTick_cycleInstr_of_no_edge he)).2.1
  · exact (cycleCore_of_boundary (edgeTick_cycleInstr_of_edge he) hb).1
  · exact (cycleCore_of_not_boundary (edgeTick_cycleInstr_of_edge he) hb).1
  · rw [cycleCore_frameDone_iff, exists_edgeTick_cycleInstr_iff]
  · exact (cycleCore_of_boundary (edgeTick_cycleInstr_of_edge he) hb).2.2
  · exact cycleCore_frameValid_of_no_boundary (edgeTick_cycleInstr_not hb)
  · exact (cycleCore_of_fires (edgeTick_cycleInstr_of_edge he) hf).2
  · exact (cycleCore_of_not_fires (edgeTick_cycleInstr_not hf)).2
  · rw [cycleCore_commitReq_iff, exists_edgeTick_cycleInstr_iff]
  · rw [cycleCore_loadOk, servesReload_cycleInstr]
    cases k.commitReq <;> cases inp.pwmReload <;> rfl
  · rw [cycleCore_pwmActive, servesReload_cycleInstr]
    simp only [Bool.and_eq_true]

end Sys2Proof.Machine
end

