-- ==== Sys2Proof/Proofs/Invariant.lean ====
section
/-! PROOFS. O33, O34 and O35: the reset state meets the invariant, every step keeps it, and the cursor stays below `N`
(41_decoder.md R111, 43_reencoder.md R142, R145, R146, 10_state.md R28 to R30). -/

namespace Sys2Proof.Machine

variable {c : Config}

/-! ### The reset state -/

theorem dutyNumber_1000 (c : Config) : dutyNumber c 1000 = 0 := by rw [dutyNumber_min, c.minDuty_eq]

/-- The reset state: both duties are that of a pulse of 1000, and no flag is set. -/
theorem inv_reset (c : Config) : (CoreState.reset c).Inv where
  cursor_lt := Nat.lt_of_lt_of_le Nat.zero_lt_two c.two_le_n
  shadow_duty := ⟨1000, le_rfl, by decide, (dutyNumber_1000 c).symm⟩
  active_duty := ⟨1000, le_rfl, by decide, (dutyNumber_1000 c).symm⟩
  done_cursor := nofun
  done_valid := nofun
  commit_done := nofun
  commit_duty := nofun
  log_quiet := fun _ => ⟨rfl, rfl, rfl, rfl⟩

/-- Settles O33: `inv_reset`; State.reset is REF's by definition. -/
theorem resetMeetsInvariant : Obligations.ResetMeetsInvariant := ⟨inv_reset, rfl, rfl, rfl⟩

/-! ### The cursor -/

/-- An edge ends with the cursor below `N`, whatever it was (10_state.md R23, 41_decoder.md R104). -/
theorem cycleCore_cursor_lt_of_edge {i : Instr} {now : Tick c} (k : CoreState c) (he : edgeTick c i = some now) :
    (cycleCore i k).cursor.toNat < c.n := by
  by_cases hb : k.BoundaryAt now
  · rw [(cycleCore_of_boundary he hb).1]
    exact Nat.lt_of_lt_of_le Nat.zero_lt_two c.two_le_n
  · rw [(cycleCore_of_not_boundary he hb).1]
    exact Nat.lt_of_not_le fun hle => hb (.inr hle)

theorem cycleCore_cursor_lt {k : CoreState c} (i : Instr) (h : k.cursor.toNat < c.n) :
    (cycleCore i k).cursor.toNat < c.n := by
  cases he : edgeTick c i with
  | none => rwa [(cycleCore_without_edge he).2.1]
  | some now => exact cycleCore_cursor_lt_of_edge k he

theorem stepFunction_cursor_lt {k : CoreState c} (inp : InputVector c) (h : k.cursor.toNat < c.n) :
    (stepFunction c k inp).cursor.toNat < c.n := by
  cases hr : inp.rst with
  | true =>
    rw [stepFunction_of_rst k hr]
    exact (inv_reset c).cursor_lt
  | false =>
    rw [stepFunction_eq_cycleCore k hr]
    exact cycleCore_cursor_lt _ h

/-- Settles O35: every cycle keeps the cursor below `N`, and an edge brings it there. -/
theorem cursorStaysBelowCapacity : Obligations.CursorStaysBelowCapacity := by
  refine ⟨fun c k ins h => ?_, fun s now => runsTo_edge (cycleCore_cursor_lt_of_edge s.core (edgeTick_edge_toNat now))⟩
  exact List.foldlRecOn (motive := fun k : CoreState c => k.cursor.toNat < c.n) ins _ h
    fun _ hk inp _ => stepFunction_cursor_lt inp hk

/-! ### The invariant -/

/-- A cycle with `rst = 0` keeps the invariant. Only a boundary sets `frame_done`, and only phase 1, which takes a
boundary, a valid frame and CONSUMER = PWM, sets `commit_req` and writes the shadow. -/
theorem inv_cycleCore {k : CoreState c} (i : Instr) (h : k.Inv) : (cycleCore i k).Inv where
  cursor_lt := cycleCore_cursor_lt i h.cursor_lt
  shadow_duty := by
    by_cases hf : ∃ now, edgeTick c i = some now ∧ k.FiresAt now
    · obtain ⟨now, he, hf⟩ := hf
      obtain ⟨hmin, hmax⟩ := hf.2.1 c.throttleIdx c.throttleIdx_lt_n c.throttleIdx_lt_validCount
      exact ⟨_, hmin, hmax, (cycleCore_of_fires he hf).2⟩
    · rw [(cycleCore_of_not_fires fun now he hfires => hf ⟨now, he, hfires⟩).2]
      exact h.shadow_duty
  active_duty := by
    rw [cycleCore_pwmActive]
    split
    · exact h.shadow_duty
    · exact h.active_duty
  done_cursor hdone := by
    obtain ⟨now, he, hb⟩ := cycleCore_frameDone_iff.mp hdone
    exact (cycleCore_of_boundary he hb).1
  done_valid hdone := by
    obtain ⟨now, he, hb⟩ := cycleCore_frameDone_iff.mp hdone
    rw [(cycleCore_of_boundary he hb).2.2, isValid_cycleCore he]
  commit_done hreq := by
    obtain ⟨now, he, hb, hvalid, hpwm⟩ := cycleCore_commitReq_iff.mp hreq
    obtain ⟨-, hdone, hjudged⟩ := cycleCore_of_boundary he hb
    exact ⟨hdone, hjudged.mpr hvalid, hpwm⟩
  commit_duty hreq := by
    obtain ⟨now, he, hf⟩ := cycleCore_commitReq_iff.mp hreq
    rw [(cycleCore_of_fires he hf).2]
    exact congrArg (dutyNumber c) (cycleCore_slot he c.throttleIdx c.throttleIdx_lt_n).symm
  log_quiet hlog := by
    obtain ⟨hshadow, hactive, hload, hreq⟩ := h.log_quiet hlog
    have hnever : ∀ now, edgeTick c i = some now → ¬ k.FiresAt now := fun now _ hf => by simp [hf.2.2] at hlog
    obtain ⟨hreq', hshadow'⟩ := cycleCore_of_not_fires hnever
    exact ⟨hshadow'.trans hshadow, by simp [hactive, hload], by simp [hreq, hload], hreq'⟩

theorem inv_stepFunction {k : CoreState c} (inp : InputVector c) (h : k.Inv) : (stepFunction c k inp).Inv := by
  cases hr : inp.rst with
  | true =>
    rw [stepFunction_of_rst k hr]
    exact inv_reset c
  | false =>
    rw [stepFunction_eq_cycleCore k hr]
    exact inv_cycleCore _ h

/-- Settles O34: the one next state of a step is STEP's (`stepRefinesSpecPseudocode`), which keeps the invariant. -/
theorem stepKeepsInvariant : Obligations.StepKeepsInvariant := by
  intro s t h hstep
  rw [stepRefinesSpecPseudocode s] at hstep
  cases hstep
  exact inv_stepFunction _ h

end Sys2Proof.Machine
end

