-- ==== Sys2Proof/Proofs/CornerCases.lean ====
section
/-! PROOFS. O25, O29, O30, O31 and O32: corner cases of the decoder (40_timestamp.md R92, 41_decoder.md R106, R110,
70_reset_and_hazards.md R196, R198). Each is an EDGE cycle from a state of which an interval or a slot is known. -/

namespace Sys2Proof.Machine

variable {c : Config} {k : CoreState c} {now : Tick c}

/-! ### Intervals -/

theorem elapsedAt_eq_sub (k : CoreState c) (now : Tick c) : k.elapsedAt now = (now - k.lastEdge).toNat :=
  (elapsed_toNat now k).symm

/-- An edge `d` ticks after the last one has elapsed `d`, whether or not the tick counter wrapped (40_timestamp.md
R92). -/
theorem elapsedAt_lastEdge_add (k : CoreState c) {d : Nat} (hd : d < 2 ^ c.tickW) :
    k.elapsedAt (k.lastEdge + BitVec.ofNat c.tickW d) = d := by
  rw [elapsedAt_eq_sub, BitVec.add_comm, BitVec.add_sub_cancel, BitVec.toNat_ofNat, Nat.mod_eq_of_lt hd]

/-- The tick `d` after the last edge, written as a number modulo the counter's period. -/
theorem edgeTick_lastEdge_add_mod (k : CoreState c) (d : Nat) :
    edgeTick c (.edge ((k.lastEdge.toNat + d) % 2 ^ c.tickW)) = some (k.lastEdge + BitVec.ofNat c.tickW d) := by
  have hsum : BitVec.ofNat c.tickW ((k.lastEdge.toNat + d) % 2 ^ c.tickW) = k.lastEdge + BitVec.ofNat c.tickW d := by
    apply BitVec.eq_of_toNat_eq
    simp
  rw [edgeTick, hsum]

theorem elapsedAt_of_lastEdge_eq (h : k.lastEdge = now) : k.elapsedAt now = 0 := by
  rw [elapsedAt_eq_sub, h, BitVec.sub_self, BitVec.toNat_zero]

theorem elapsedAt_reset (c : Config) (now : Tick c) : (CoreState.reset c).elapsedAt now = now.toNat := by
  exact (elapsedAt_eq_sub _ now).trans (congrArg BitVec.toNat (elapsed_zero now))

/-! ### Boundaries and validity -/

/-- With a free slot left an edge is a boundary after a gap alone. -/
theorem boundaryAt_iff_of_cursor_lt (h : k.cursor.toNat + 1 < c.n) : k.BoundaryAt now ↔ 2100 < k.elapsedAt now :=
  or_iff_left (Nat.not_le.mpr h)

/-- One validated slot out of range makes the frame invalid. -/
theorem not_validAfter_of_slot {j : Nat} (hj : j < c.validCount)
    (h : ¬ (1000 ≤ k.slotAfter now j (hj.trans_le c.validCount_le_n) ∧
      k.slotAfter now j (hj.trans_le c.validCount_le_n) ≤ 2000)) : ¬ k.ValidAfter now :=
  fun hvalid => h (hvalid j _ hj)

/-- An edge that completes no valid frame moves no duty, and says so in `frame_valid` if it is a boundary. -/
theorem cycleCore_of_not_valid {i : Instr} (he : edgeTick c i = some now) (hv : ¬ k.ValidAfter now) :
    (cycleCore i k).pwmShadow = k.pwmShadow ∧ (cycleCore i k).commitReq = false ∧
    (k.BoundaryAt now → (cycleCore i k).frameValid = false) := by
  obtain ⟨hreq, hshadow⟩ := cycleCore_of_edge_not_fires he fun hf => hv hf.2.1
  exact ⟨hshadow, hreq, fun hb => Bool.eq_false_iff.mpr fun h => hv ((cycleCore_of_boundary he hb).2.2.mp h)⟩

/-- Settles O25: the interval is `d` by `elapsedAt_lastEdge_add`; its low bits are stored and all of it is tested. -/
theorem intervalStoredAcrossWrap : Obligations.IntervalStoredAcrossWrap := by
  intro s d hcur hd
  have he := edgeTick_lastEdge_add_mod s.core d
  have helapsed := elapsedAt_lastEdge_add s.core hd
  refine runsTo_edge ⟨?_, fun hgap => ?_, fun hshort hfree => ?_⟩
  · rw [cycleCore_slot he, slotAfter_cursor, helapsed]
  · exact (cycleCore_of_boundary he (.inl (by rwa [helapsed]))).2.1
  · refine (cycleCore_of_not_boundary he ?_).2.1
    rw [boundaryAt_iff_of_cursor_lt hfree, helapsed]
    exact Nat.not_lt.mpr hshort

/-! ### The first edge after a reset -/

theorem slotAfter_reset_zero (c : Config) (now : Tick c) (h : 0 < c.n) :
    (CoreState.reset c).slotAfter now 0 h = now.toNat % 2 ^ c.pwW := by
  simp [CoreState.slotAfter, elapsedAt_reset]

theorem slotAfter_reset_of_ne_zero (now : Tick c) {i : Nat} (h : i < c.n) (hi : i ≠ 0) :
    (CoreState.reset c).slotAfter now i h = 0 := by
  simp [CoreState.slotAfter, hi]

theorem boundaryAt_reset_iff (now : Tick c) : (CoreState.reset c).BoundaryAt now ↔ 2100 < now.toNat := by
  rw [boundaryAt_iff_of_cursor_lt, elapsedAt_reset]
  exact c.two_le_n

/-- Settles O29: with two validated slots or more the second is still 0, so a first gap completes no valid frame. -/
theorem firstEdgeAfterReset : Obligations.FirstEdgeAfterReset := by
  intro s now hs
  have he := edgeTick_edge_toNat now
  refine runsTo_edge ?_
  rw [hs]
  refine ⟨?_, fun i hi hne => ?_, cycleCore_lastEdge he, ?_, ?_, fun hgap => ?_, fun hshort => ?_⟩
  · rw [cycleCore_slot he, slotAfter_reset_zero]
  · apply BitVec.eq_of_toNat_eq
    rw [cycleCore_slot he, slotAfter_reset_of_ne_zero now hi hne]
    rfl
  · simp
  · simp
  · have hb := (boundaryAt_reset_iff now).mpr hgap
    obtain ⟨hcursor, hdone, -⟩ := cycleCore_of_boundary he hb
    refine ⟨hdone, hcursor, fun htwo => ?_⟩
    have hv : ¬ (CoreState.reset s.cfg).ValidAfter now :=
      not_validAfter_of_slot htwo (by rw [slotAfter_reset_of_ne_zero now _ (by decide)]; decide)
    obtain ⟨hshadow, hreq, hinvalid⟩ := cycleCore_of_not_valid he hv
    exact ⟨hinvalid hb, hshadow, hreq⟩
  · have hb : ¬ (CoreState.reset s.cfg).BoundaryAt now := by
      rw [boundaryAt_reset_iff]
      exact Nat.not_lt.mpr hshort
    obtain ⟨hcursor, hdone, -⟩ := cycleCore_of_not_boundary he hb
    obtain ⟨hreq, hshadow⟩ := cycleCore_of_edge_not_fires he fun hf => hb hf.1
    exact ⟨hdone, hcursor, hshadow, hreq⟩

/-! ### Short frames -/

/-- A slot as wide as a tick count keeps a gap whole, above the range, so the frame the gap ends is invalid. -/
theorem not_validAfter_of_gap (hw : c.pwW = c.tickW) (hgap : 2100 < k.elapsedAt now)
    (hcur : k.cursor.toNat < c.validCount) : ¬ k.ValidAfter now := by
  have hfits : k.elapsedAt now < 2 ^ c.pwW := by
    rw [hw]
    exact Nat.mod_lt _ (Nat.two_pow_pos _)
  refine not_validAfter_of_slot hcur ?_
  rw [slotAfter_cursor, Nat.mod_eq_of_lt hfits]
  omega

/-- Settles O30: a gap at a validated slot is stored whole and fails the range check. -/
theorem shortFrameIsInvalid : Obligations.ShortFrameIsInvalid := by
  intro s now hw hcur
  have he := edgeTick_edge_toNat now
  refine runsTo_edge ⟨fun hgap hvalidated => ?_, fun hcount hdone hvalid => ?_⟩
  · have hb : s.core.BoundaryAt now := .inl hgap
    obtain ⟨hshadow, hreq, hinvalid⟩ := cycleCore_of_not_valid he (not_validAfter_of_gap hw hgap hvalidated)
    exact ⟨(cycleCore_of_boundary he hb).2.1, hinvalid hb, hshadow, hreq⟩
  · obtain ⟨now', he', hb⟩ := cycleCore_frameDone_iff.mp hdone
    obtain rfl := Option.some.inj (he.symm.trans he')
    have hjudged := (cycleCore_of_boundary he hb).2.2.mp hvalid
    by_contra hne
    have hearly : s.core.cursor.toNat + 1 < s.cfg.n := by omega
    have hgap := (boundaryAt_iff_of_cursor_lt hearly).mp hb
    exact not_validAfter_of_gap hw hgap (by omega) hjudged

/-- An interval of `2^PW_W` ticks or more whose low bits are in range is a gap, at the narrowest slots too. -/
theorem gap_of_aliased {e : Nat} (hle : 2 ^ c.pwW ≤ e) (hmin : 1000 ≤ e % 2 ^ c.pwW) : 2100 < e := by
  have hmod : e % 2 ^ c.pwW ≤ e - 2 ^ c.pwW := by
    rw [Nat.mod_eq_sub_mod hle]
    exact Nat.mod_le _ _
  have hwide := pwMax_lt_two_pow_pwW c
  omega

/-- Settles O31: the aliased interval is a gap, and the slot it is cut to passes the range check. -/
theorem narrowSlotAcceptsAliasedGap : Obligations.NarrowSlotAcceptsAliasedGap := by
  intro s e hle hlt hmin hmax hcur hstale
  have he := edgeTick_lastEdge_add_mod s.core e
  have helapsed := elapsedAt_lastEdge_add s.core hlt
  generalize s.core.lastEdge + BitVec.ofNat s.cfg.tickW e = now at he helapsed
  have hb : s.core.BoundaryAt now := .inl (by rw [helapsed]; exact gap_of_aliased hle hmin)
  have hslot (i : Nat) (h : i < s.cfg.n) : s.core.slotAfter now i h =
      if i = s.core.cursor.toNat then e % 2 ^ s.cfg.pwW else (s.core.frame[i]).toNat := by
    rw [CoreState.slotAfter, helapsed]
  have hvalid : s.core.ValidAfter now := by
    intro i h hi
    rw [hslot]
    split
    · exact ⟨hmin, hmax⟩
    · exact hstale i h hi ‹_›
  obtain ⟨hcursor, hdone, hjudged⟩ := cycleCore_of_boundary he hb
  refine runsTo_edge ⟨hdone, hjudged.mpr hvalid, hcursor, fun i h => ?_, fun hpwm => ?_, fun hlog => ?_⟩
  · rw [cycleCore_slot he, hslot]
  · rw [cycleCore_slot he]
    exact cycleCore_of_fires he ⟨hb, hvalid, hpwm⟩
  · exact cycleCore_of_edge_not_fires he fun hf => by simp [hf.2.2] at hlog

/-! ### A strobe held for two cycles -/

/-- An edge at the tick of the last one stores 0 and, with a free slot left, counts it. -/
theorem cycleCore_of_edge_again {i : Instr} (he : edgeTick c i = some now) (hlast : k.lastEdge = now)
    (hcur : k.cursor.toNat < c.n) :
    (cycleCore i k).frame[k.cursor.toNat] = 0 ∧
    (k.cursor.toNat + 1 < c.n → (cycleCore i k).cursor.toNat = k.cursor.toNat + 1) := by
  have hzero := elapsedAt_of_lastEdge_eq hlast
  refine ⟨BitVec.eq_of_toNat_eq ?_, fun hfree => (cycleCore_of_not_boundary he ?_).1⟩
  · rw [cycleCore_slot he, slotAfter_cursor, hzero, Nat.zero_mod]
    rfl
  · rw [boundaryAt_iff_of_cursor_lt hfree, hzero]
    decide

/-- Settles O32: the first edge leaves the cursor below `N` and `last_edge` at `now`, so the second measures 0. -/
theorem heldStrobeIsTwoEdges : Obligations.HeldStrobeIsTwoEdges := by
  intro s now _
  have he := edgeTick_edge_toNat now
  have hcur := cycleCore_cursor_lt_of_edge s.core he
  exact runsTo_edge ⟨hcur, runsTo_edge (cycleCore_of_edge_again he (cycleCore_lastEdge he) hcur)⟩

end Sys2Proof.Machine
end

