-- ==== Sys2Proof/Proofs/Runs.lean ====
section
/-! PROOFS. O37, O38, O39, O41, O42 and O43: statements about runs of the core (44_cycle.md R158). Each says what one
cycle keeps or does, and is then carried along the input sequence. -/

namespace Sys2Proof.Machine

variable {c : Config} {k : CoreState c} {inp : InputVector c} {ins : List (InputVector c)}

/-! ### Input sequences -/

theorem noReset_cons_iff : NoReset (inp :: ins) ↔ inp.rst = false ∧ NoReset ins := List.forall_mem_cons

theorem noReset_append_iff {xs ys : List (InputVector c)} : NoReset (xs ++ ys) ↔ NoReset xs ∧ NoReset ys :=
  List.forall_mem_append

/-- Settles O37: the RESET cycle's next state is the reset state, whatever the state. -/
theorem resetForgetsHistory : Obligations.ResetForgetsHistory := by
  intro c k before after inp hr
  rw [runInputs_append, runInputs_cons, stepFunction_of_rst _ hr]

/-! ### Cycles without an edge -/

/-- A cycle with neither a reset nor an edge keeps the decoder's registers and the shadow (20_memory.md R61). -/
theorem stepFunction_without_edge (k : CoreState c) (hr : inp.rst = false) (he : inp.edgeValid = false) :
    (stepFunction c k inp).frame = k.frame ∧ (stepFunction c k inp).cursor = k.cursor ∧
    (stepFunction c k inp).lastEdge = k.lastEdge ∧ (stepFunction c k inp).frameValid = k.frameValid ∧
    (stepFunction c k inp).pwmShadow = k.pwmShadow := by
  have htick := edgeTick_cycleInstr_of_no_edge he
  rw [stepFunction_eq_cycleCore k hr]
  obtain ⟨hframe, hcursor, hlast, hvalid, -⟩ := cycleCore_without_edge (k := k) htick
  exact ⟨hframe, hcursor, hlast, hvalid, (cycleCore_quiet_without_edge htick).2⟩

/-- Settles O38: cycle by cycle, by induction on the sequence. -/
theorem frameIntactBetweenEdges : Obligations.FrameIntactBetweenEdges := by
  intro c k ins hr hedges
  induction ins generalizing k with
  | nil => exact ⟨rfl, rfl, rfl, rfl, rfl⟩
  | cons inp ins ih =>
    obtain ⟨hinp, hins⟩ := noReset_cons_iff.mp hr
    rw [edgeCycles_cons, hinp] at hedges
    have he : inp.edgeValid = false := by
      cases h : inp.edgeValid with
      | false => rfl
      | true => simp [h] at hedges
    obtain ⟨hframe, hcursor, hlast, hvalid, hshadow⟩ := stepFunction_without_edge k hinp he
    have hrest := ih (stepFunction c k inp) hins (by omega)
    rwa [hframe, hcursor, hlast, hvalid, hshadow] at hrest

/-! ### Boundaries -/

/-- A boundary found after the first cycle is one of the whole sequence. -/
theorem exists_boundary_cons
    (h : ∃ m, 0 < m ∧ m ≤ ins.length ∧ (runInputs (stepFunction c k inp) (ins.take m)).frameDone = true) :
    ∃ m, 0 < m ∧ m ≤ (inp :: ins).length ∧ (runInputs k ((inp :: ins).take m)).frameDone = true := by
  obtain ⟨m, -, hm, hdone⟩ := h
  exact ⟨m + 1, Nat.succ_pos m, Nat.succ_le_succ hm, hdone⟩

/-- Every edge that is no boundary counts a slot, so as many edges as there are slots left contain a boundary. -/
theorem exists_boundary_of_edges (hr : NoReset ins) (hpos : 0 < edgeCycles ins)
    (hedges : c.n ≤ k.cursor.toNat + edgeCycles ins) :
    ∃ m, 0 < m ∧ m ≤ ins.length ∧ (runInputs k (ins.take m)).frameDone = true := by
  induction ins generalizing k with
  | nil => exact absurd hpos (Nat.lt_irrefl 0)
  | cons inp ins ih =>
    obtain ⟨hinp, hins⟩ := noReset_cons_iff.mp hr
    rw [edgeCycles_cons, hinp] at hpos hedges
    cases he : inp.edgeValid with
    | false =>
      simp only [he, Bool.false_and, Bool.false_eq_true, if_false, Nat.add_zero] at hpos hedges
      refine exists_boundary_cons (ih hins hpos ?_)
      rwa [(stepFunction_without_edge k hinp he).2.1]
    | true =>
      simp only [he, Bool.not_false, Bool.and_self, if_true] at hedges
      have htick := edgeTick_cycleInstr_of_edge he
      by_cases hb : k.BoundaryAt inp.now
      · refine ⟨1, Nat.one_pos, Nat.succ_pos _, ?_⟩
        rw [List.take_succ_cons, runInputs_cons, stepFunction_eq_cycleCore k hinp]
        exact (cycleCore_of_boundary htick hb).2.1
      · have hfree : k.cursor.toNat + 1 < c.n := Nat.lt_of_not_le fun h => hb (.inr h)
        have hcursor : (stepFunction c k inp).cursor.toNat = k.cursor.toNat + 1 := by
          rw [stepFunction_eq_cycleCore k hinp]
          exact (cycleCore_of_not_boundary htick hb).1
        exact exists_boundary_cons (ih hins (by omega) (by omega))

/-- Settles O39: `N` edges are enough slots from any cursor. -/
theorem boundaryWithinCapacityEdges : Obligations.BoundaryWithinCapacityEdges := by
  intro c k ins hr hn
  have htwo := c.two_le_n
  exact exists_boundary_of_edges hr (by omega) (by omega)

/-! ### The two-phase write along a run -/

/-- The fields of the PWM side after a cycle with `rst = 0`, phase 1 or not (43_reencoder.md R136, R140). -/
theorem stepFunction_promotion (k : CoreState c) (hr : inp.rst = false) :
    (stepFunction c k inp).pwmActive = (if inp.pwmReload = true ∧ k.loadOk = true then k.pwmShadow else k.pwmActive) ∧
    (stepFunction c k inp).loadOk = (k.commitReq || !inp.pwmReload && k.loadOk) := by
  rw [stepFunction_eq_cycleCore k hr, cycleCore_pwmActive, cycleCore_loadOk, servesReload_cycleInstr]
  exact ⟨rfl, rfl⟩

/-- A cycle in which phase 1 does not fire (43_reencoder.md R134). -/
theorem stepFunction_of_not_fires (hr : inp.rst = false) (hf : ¬ (inp.edgeValid = true ∧ k.FiresAt inp.now)) :
    (stepFunction c k inp).commitReq = false ∧ (stepFunction c k inp).pwmShadow = k.pwmShadow := by
  rw [stepFunction_eq_cycleCore k hr]
  exact cycleCore_of_not_fires (edgeTick_cycleInstr_not hf)

/-- A cycle in which phase 1 fires (43_reencoder.md R133). -/
theorem stepFunction_of_fires (hr : inp.rst = false) (he : inp.edgeValid = true) (hf : k.FiresAt inp.now) :
    (stepFunction c k inp).commitReq = true ∧
    (stepFunction c k inp).pwmShadow.toNat = dutyNumber c (k.slotAfter inp.now c.throttleIdx c.throttleIdx_lt_n) := by
  rw [stepFunction_eq_cycleCore k hr]
  exact cycleCore_of_fires (edgeTick_cycleInstr_of_edge he) hf

/-- What every cycle of a sequence without RESET in which phase 1 does not fire keeps, the sequence keeps. -/
theorem runInputs_of_noneFires {P : CoreState c → Prop} (hr : NoReset ins) (hn : NoneFires k ins) (h : P k)
    (hstep : ∀ (k : CoreState c) (inp : InputVector c), inp ∈ ins → inp.rst = false →
      ¬ (inp.edgeValid = true ∧ k.FiresAt inp.now) → P k → P (stepFunction c k inp)) : P (runInputs k ins) := by
  induction ins generalizing k with
  | nil => exact h
  | cons inp ins ih =>
    obtain ⟨hinp, hins⟩ := noReset_cons_iff.mp hr
    obtain ⟨hf, hrest⟩ := hn
    have hhead := hstep k inp List.mem_cons_self hinp hf h
    exact ih hins hrest hhead fun k' inp' hmem => hstep k' inp' (List.mem_cons_of_mem _ hmem)

/-- Settles O42: without phase 1 the shadow stays, so a promotion is of the staged duty; with nothing pending there
is none. -/
theorem idempotentUnderNoise : Obligations.IdempotentUnderNoise := by
  intro c k ins hr hn
  have hstaged : (runInputs k ins).pwmShadow = k.pwmShadow ∧
      ((runInputs k ins).pwmActive = k.pwmActive ∨ (runInputs k ins).pwmActive = k.pwmShadow) := by
    refine runInputs_of_noneFires
      (P := fun k' => k'.pwmShadow = k.pwmShadow ∧ (k'.pwmActive = k.pwmActive ∨ k'.pwmActive = k.pwmShadow))
      hr hn ⟨rfl, .inl rfl⟩ fun k' inp _ hinp hf ⟨hshadow, hactive⟩ => ?_
    rw [(stepFunction_of_not_fires hinp hf).2, (stepFunction_promotion k' hinp).1, hshadow]
    refine ⟨rfl, ?_⟩
    split
    · exact .inr rfl
    · exact hactive
  refine ⟨hstaged.1, hstaged.2, fun hl hc => ?_⟩
  refine runInputs_of_noneFires
    (P := fun k' => k'.pwmActive = k.pwmActive ∧ k'.loadOk = false ∧ k'.commitReq = false)
    hr hn ⟨rfl, hl, hc⟩ fun k' inp _ hinp hf ⟨hactive, hload, hreq⟩ => ?_
  obtain ⟨hactive', hload'⟩ := stepFunction_promotion k' hinp
  exact ⟨by simp [hactive', hload, hactive], by simp [hload', hload, hreq], (stepFunction_of_not_fires hinp hf).1⟩

/-- A pending commit waits for a reload, whatever the cycles in between, while none stages a newer duty. -/
theorem runInputs_pending (hr : NoReset ins) (hquiet : ∀ inp ∈ ins, inp.pwmReload = false) (hn : NoneFires k ins)
    (hl : k.loadOk = true) :
    (runInputs k ins).pwmShadow = k.pwmShadow ∧ (runInputs k ins).pwmActive = k.pwmActive ∧
    (runInputs k ins).loadOk = true := by
  refine runInputs_of_noneFires
    (P := fun k' => k'.pwmShadow = k.pwmShadow ∧ k'.pwmActive = k.pwmActive ∧ k'.loadOk = true)
    hr hn ⟨rfl, rfl, hl⟩ fun k' inp hmem hinp hf ⟨hshadow, hactive, hload⟩ => ?_
  obtain ⟨hactive', hload'⟩ := stepFunction_promotion k' hinp
  exact ⟨(stepFunction_of_not_fires hinp hf).2.trans hshadow, by simp [hactive', hquiet inp hmem, hactive],
    by simp [hload', hquiet inp hmem, hload]⟩

/-- Settles O41: the first cycle stages the duty and asks for the commit, the second makes it pending (nothing was
pending for either to promote), it waits, and the reload puts the staged duty in force. -/
theorem dutyInForceAtFirstReloadAfterCommit : Obligations.DutyInForceAtFirstReloadAfterCommit := by
  intro c k first second last mid hl hc hr1 he1 hf1 hr hquiet hn hrl hreload
  obtain ⟨hr2, hrmid⟩ := noReset_cons_iff.mp hr
  obtain ⟨hf2, hnmid⟩ := hn
  obtain ⟨hreq1, hshadow1⟩ := stepFunction_of_fires hr1 he1 hf1
  obtain ⟨hactive1, hload1⟩ := stepFunction_promotion k hr1
  rw [hl, if_neg (by simp)] at hactive1
  rw [hl, hc, Bool.and_false, Bool.or_false] at hload1
  obtain ⟨hactive2, hload2⟩ := stepFunction_promotion (stepFunction c k first) hr2
  rw [hload1, if_neg (by simp), hactive1] at hactive2
  rw [hreq1, Bool.true_or] at hload2
  have hshadow2 := (stepFunction_of_not_fires hr2 hf2).2
  obtain ⟨hshadow, hactive, hload⟩ := runInputs_pending hrmid hquiet hnmid hload2
  refine ⟨hactive.trans hactive2, hload, ?_⟩
  rw [runInputs_append, runInputs_cons, runInputs_nil, (stepFunction_promotion _ hrl).1, if_pos ⟨hreload, hload⟩]
  exact (congrArg BitVec.toNat (hshadow.trans hshadow2)).trans hshadow1

/-! ### No duty before enough edges -/

/-- What holds at most `m` edges after a reset that staged no duty: the slots from `m` on are still 0. -/
structure BlankFrom (m : Nat) (k : CoreState c) : Prop where
  cursor_le : k.cursor.toNat ≤ m
  slot_zero : ∀ (i : Nat) (h : i < c.n), m ≤ i → (k.frame[i]).toNat = 0
  shadow_zero : k.pwmShadow = 0
  active_zero : k.pwmActive = 0

theorem blankFrom_reset (c : Config) (m : Nat) : BlankFrom m (CoreState.reset c) where
  cursor_le := Nat.zero_le m
  slot_zero _ _ _ := by simp
  shadow_zero := rfl
  active_zero := rfl

/-- With fewer edges than validated slots so far, this one included, the last validated slot is 0. -/
theorem not_validAfter_of_blankFrom {m : Nat} (h : BlankFrom m k) (now : Tick c) (hm : m + 1 < c.validCount) :
    ¬ k.ValidAfter now := by
  have hlast : c.validCount - 1 < c.validCount := by omega
  have hcursor := h.cursor_le
  refine not_validAfter_of_slot hlast ?_
  rw [slotAfter_other k now _ _ (by omega), h.slot_zero _ _ (by omega)]
  decide

/-- An edge fills one slot, at or below `m`. -/
theorem blankFrom_cycleCore_of_edge {m : Nat} {i : Instr} {now : Tick c} (he : edgeTick c i = some now)
    (h : BlankFrom m k) (hm : m + 1 < c.validCount) : BlankFrom (m + 1) (cycleCore i k) where
  cursor_le := by
    have hcursor := h.cursor_le
    by_cases hb : k.BoundaryAt now
    · rw [(cycleCore_of_boundary he hb).1]
      exact Nat.zero_le _
    · rw [(cycleCore_of_not_boundary he hb).1]
      omega
  slot_zero j hj hle := by
    have hcursor := h.cursor_le
    rw [cycleCore_slot he, slotAfter_other k now j hj (by omega), h.slot_zero j hj (by omega)]
  shadow_zero := (cycleCore_of_not_valid he (not_validAfter_of_blankFrom h now hm)).1.trans h.shadow_zero
  active_zero := by simp [h.shadow_zero, h.active_zero]

theorem blankFrom_cycleCore_without_edge {m : Nat} {i : Instr} (he : edgeTick c i = none) (h : BlankFrom m k) :
    BlankFrom m (cycleCore i k) where
  cursor_le := (congrArg BitVec.toNat (cycleCore_without_edge he).2.1).trans_le h.cursor_le
  slot_zero := by simpa only [(cycleCore_without_edge he).1] using h.slot_zero
  shadow_zero := (cycleCore_quiet_without_edge he).2.trans h.shadow_zero
  active_zero := by simp [h.shadow_zero, h.active_zero]

/-- Each cycle adds to the count what it adds to the number of edges. -/
theorem blankFrom_stepFunction {m : Nat} (h : BlankFrom m k)
    (hm : m + (if inp.edgeValid && !inp.rst then 1 else 0) < c.validCount) :
    BlankFrom (m + if inp.edgeValid && !inp.rst then 1 else 0) (stepFunction c k inp) := by
  cases hr : inp.rst with
  | true =>
    rw [stepFunction_of_rst k hr]
    exact blankFrom_reset c _
  | false =>
    rw [stepFunction_eq_cycleCore k hr]
    cases he : inp.edgeValid with
    | true =>
      rw [hr, he] at hm
      exact blankFrom_cycleCore_of_edge (edgeTick_cycleInstr_of_edge he) h hm
    | false => exact blankFrom_cycleCore_without_edge (edgeTick_cycleInstr_of_no_edge he) h

theorem blankFrom_runInputs {m : Nat} (h : BlankFrom m k) (hm : m + edgeCycles ins < c.validCount) :
    BlankFrom (m + edgeCycles ins) (runInputs k ins) := by
  induction ins generalizing k m with
  | nil => exact h
  | cons inp ins ih =>
    have hcount := edgeCycles_cons inp ins
    have hrest := ih (blankFrom_stepFunction (inp := inp) h (by omega)) (by omega)
    rwa [runInputs_cons, hcount, Nat.add_comm (edgeCycles ins), ← Nat.add_assoc]

/-- Settles O43: the reset state is blank, and fewer edges than validated slots leave it so. -/
theorem noDutyBeforeEnoughEdges : Obligations.NoDutyBeforeEnoughEdges := by
  intro c ins h
  have hblank := blankFrom_runInputs (ins := ins) (blankFrom_reset c 0) (by omega)
  exact ⟨hblank.shadow_zero, hblank.active_zero⟩

end Sys2Proof.Machine
end

