-- ==== Sys2Proof/Proofs/FrameDecoding.lean ====
section
/-! PROOFS. O40: a well-formed frame is decoded whole (spec/95_test_vectors.md S1 and S3, 41_decoder.md R101 to R104).
Between boundaries the frame holds the intervals measured since the cursor was 0, in order; the last edge completes
it. -/

namespace Sys2Proof.Machine

variable {c : Config} {k : CoreState c} {inp : InputVector c} {ds : List Nat}

/-! ### The intervals of a run -/

/-- The first cycle measures an interval if it has an edge, and the rest count from the tick it leaves. -/
theorem intervals_cons (k : CoreState c) (hr : inp.rst = false) (rest : List (InputVector c)) :
    intervals k.lastEdge (inp :: rest) =
      (if inp.edgeValid then [k.elapsedAt inp.now] else []) ++ intervals (stepFunction c k inp).lastEdge rest := by
  rw [stepFunction_lastEdge k hr, intervals]
  cases inp.edgeValid <;> rfl

theorem intervals_append {xs : List (InputVector c)} (k : CoreState c) (hr : NoReset xs)
    (ys : List (InputVector c)) :
    intervals k.lastEdge (xs ++ ys) = intervals k.lastEdge xs ++ intervals (runInputs k xs).lastEdge ys := by
  induction xs generalizing k with
  | nil => rfl
  | cons inp xs ih =>
    obtain ⟨hinp, hxs⟩ := noReset_cons_iff.mp hr
    rw [List.cons_append, intervals_cons k hinp, intervals_cons k hinp, ih _ hxs, runInputs_cons, List.append_assoc]

theorem intervals_singleton (k : CoreState c) (he : inp.edgeValid = true) :
    intervals k.lastEdge [inp] = [k.elapsedAt inp.now] := if_pos he

/-! ### A frame under way -/

/-- The frame holds the intervals `ds`, one a slot from slot 0 on, and the cursor selects the slot after them. -/
structure HoldsIntervals (k : CoreState c) (ds : List Nat) : Prop where
  cursor_eq : k.cursor.toNat = ds.length
  slot_eq : ∀ (i : Nat) (h : i < c.n) (hi : i < ds.length), (k.frame[i]).toNat = ds[i] % 2 ^ c.pwW

/-- An edge stores its interval after them, boundary or not. -/
theorem HoldsIntervals.slotAfter_eq (h : HoldsIntervals k ds) (now : Tick c) {i : Nat} (hi : i < c.n)
    (hlt : i < (ds ++ [k.elapsedAt now]).length) :
    k.slotAfter now i hi = (ds ++ [k.elapsedAt now])[i] % 2 ^ c.pwW := by
  have hcursor := h.cursor_eq
  by_cases hold : i < ds.length
  · rw [slotAfter_other k now i hi (by omega), h.slot_eq i hi hold, List.getElem_append_left hold]
  · obtain rfl : i = k.cursor.toNat := by
      rw [List.length_append, List.length_singleton] at hlt
      omega
    rw [slotAfter_cursor, List.getElem_concat_length hcursor]

/-- An edge that is no boundary adds its interval. -/
theorem HoldsIntervals.stepFunction_edge (h : HoldsIntervals k ds) (hr : inp.rst = false) (he : inp.edgeValid = true)
    (hroom : ds.length + 1 < c.n) (hshort : k.elapsedAt inp.now ≤ 2100) :
    HoldsIntervals (stepFunction c k inp) (ds ++ [k.elapsedAt inp.now]) where
  cursor_eq := by
    have hb : ¬ k.BoundaryAt inp.now := by
      rw [boundaryAt_iff_of_cursor_lt (by rwa [h.cursor_eq])]
      exact Nat.not_lt.mpr hshort
    rw [stepFunction_eq_cycleCore k hr, (cycleCore_of_not_boundary (edgeTick_cycleInstr_of_edge he) hb).1,
      h.cursor_eq, List.length_append, List.length_singleton]
  slot_eq i hi hlt := by
    rw [stepFunction_slot k hr i hi, if_pos he, h.slotAfter_eq inp.now hi hlt]

theorem HoldsIntervals.stepFunction_no_edge (h : HoldsIntervals k ds) (hr : inp.rst = false)
    (he : inp.edgeValid = false) : HoldsIntervals (stepFunction c k inp) ds := by
  obtain ⟨hframe, hcursor, -⟩ := stepFunction_without_edge k hr he
  exact ⟨by rw [hcursor, h.cursor_eq], by simpa only [hframe] using h.slot_eq⟩

/-- A run of edges short of the capacity, none of them a gap, adds its intervals. -/
theorem HoldsIntervals.run {ins : List (InputVector c)} (h : HoldsIntervals k ds) (hr : NoReset ins)
    (hroom : ds.length + (intervals k.lastEdge ins).length < c.n)
    (hshort : ∀ d ∈ intervals k.lastEdge ins, d ≤ 2100) :
    HoldsIntervals (runInputs k ins) (ds ++ intervals k.lastEdge ins) := by
  induction ins generalizing k ds with
  | nil => rwa [intervals, List.append_nil]
  | cons inp ins ih =>
    obtain ⟨hinp, hins⟩ := noReset_cons_iff.mp hr
    rw [intervals_cons k hinp] at hroom hshort ⊢
    rw [runInputs_cons]
    cases he : inp.edgeValid with
    | false =>
      rw [he, if_neg Bool.false_ne_true, List.nil_append] at hroom hshort
      exact ih (h.stepFunction_no_edge hinp he) hins hroom hshort
    | true =>
      rw [he, if_pos rfl] at hroom hshort
      rw [if_pos rfl, ← List.append_assoc]
      rw [List.length_append, List.length_singleton] at hroom
      obtain ⟨hfirst, hrest⟩ := List.forall_mem_append.mp hshort
      have hstored := h.stepFunction_edge hinp he (by omega) (hfirst _ (List.mem_singleton_self _))
      refine ih hstored hins ?_ hrest
      rw [List.length_append, List.length_singleton]
      omega

/-! ### The last edge -/

/-- With the last slot to fill, an edge is a boundary; the completed frame holds all the intervals, and is valid where
they are in range. -/
theorem HoldsIntervals.stepFunction_last_edge {all : List Nat} (h : HoldsIntervals k ds) (hr : inp.rst = false)
    (he : inp.edgeValid = true) (hall : all = ds ++ [k.elapsedAt inp.now]) (hlen : all.length = c.n)
    (hrange : ∀ (i : Nat) (h : i < all.length), i < c.validCount → 1000 ≤ all[i] ∧ all[i] ≤ 2000) :
    (∀ (i : Nat) (hi : i < c.n), ((stepFunction c k inp).frame[i]).toNat = all[i] % 2 ^ c.pwW) ∧
    (stepFunction c k inp).cursor = 0 ∧ (stepFunction c k inp).frameDone = true ∧
    (stepFunction c k inp).frameValid = true ∧
    (c.consumer = .pwm → (stepFunction c k inp).commitReq = true ∧ (stepFunction c k inp).pwmShadow.toNat =
      dutyNumber c (all[c.throttleIdx]'(hlen ▸ c.throttleIdx_lt_n))) := by
  subst hall
  have hslot (i : Nat) (hi : i < c.n) := h.slotAfter_eq inp.now hi (hlen ▸ hi)
  have hkept (i : Nat) (hi : i < c.n) (hv : i < c.validCount) :=
    Nat.mod_eq_of_lt ((hrange i (hlen ▸ hi) hv).2.trans_lt (pwMax_lt_two_pow_pwW c))
  have hvalid : k.ValidAfter inp.now := by
    intro i hi hv
    rw [hslot, hkept i hi hv]
    exact hrange i (hlen ▸ hi) hv
  have hb : k.BoundaryAt inp.now := .inr (by rw [h.cursor_eq, ← hlen, List.length_append, List.length_singleton])
  have htick := edgeTick_cycleInstr_of_edge he
  obtain ⟨hcursor, hdone, hjudged⟩ := cycleCore_of_boundary htick hb
  simp only [stepFunction_eq_cycleCore k hr]
  refine ⟨fun i hi => ?_, hcursor, hdone, hjudged.mpr hvalid, fun hpwm => ?_⟩
  · rw [cycleCore_slot htick, hslot]
  · obtain ⟨hreq, hshadow⟩ := cycleCore_of_fires htick ⟨hb, hvalid, hpwm⟩
    refine ⟨hreq, ?_⟩
    rw [hshadow, hslot, hkept c.throttleIdx c.throttleIdx_lt_n c.throttleIdx_lt_validCount]

/-- Settles O40: the cycles before the last one collect the first `N - 1` intervals, and the last edge completes the
frame. -/
theorem wellFormedFrameIsDecoded : Obligations.WellFormedFrameIsDecoded := by
  intro c k ins last hcursor hr he ds hlen hrange hshort
  obtain ⟨hins, hlast⟩ := noReset_append_iff.mp hr
  have hds : ds = intervals k.lastEdge ins ++ [(runInputs k ins).elapsedAt last.now] :=
    (intervals_append k hins [last]).trans (congrArg _ (intervals_singleton _ he))
  have hcount : ds.length = (intervals k.lastEdge ins).length + 1 := by
    rw [hds, List.length_append, List.length_singleton]
  have hstart : HoldsIntervals k [] := ⟨by rw [hcursor]; rfl, nofun⟩
  have hholds : HoldsIntervals (runInputs k ins) (intervals k.lastEdge ins) := by
    refine hstart.run hins (by rw [List.length_nil]; omega) fun d hd => ?_
    obtain ⟨i, hi, rfl⟩ := List.mem_iff_getElem.mp hd
    have hbound := hshort i (by omega) (by omega)
    rwa [List.getElem_of_eq hds, List.getElem_append_left hi] at hbound
  rw [runInputs_append]
  exact hholds.stepFunction_last_edge (hlast last (List.mem_singleton_self last)) he hds hlen hrange

end Sys2Proof.Machine
end

