-- ==== Sys2Proof/Proofs/Assembler.lean ====
section
/-! PROOFS. O44: the assembler's variable `t` is the core's `last_edge` (30_encoding.md R78). Both are folds of
`tickAfter` over the operations a script stands for. -/

namespace Sys2Proof.Machine

variable {c : Config}

/-- The input vector of a canonical word. -/
theorem inputOf_encode (i : Instr) :
    inputOf c (encode c i) = ⟨(opOf i).getLsbD 2, (opOf i).getLsbD 1, (opOf i).getLsbD 0,
      BitVec.ofNat c.tickW (operandOf i)⟩ := by
  rw [encode, inputOf, rstBit_append, edgeValidBit_append, pwmReloadBit_append, nowField_append]

/-- One operation moves `last_edge` as it moves `t`. -/
theorem stepFunction_encode_lastEdge (k : CoreState c) (i : Instr) :
    (stepFunction c k (inputOf c (encode c i))).lastEdge = tickAfter c k.lastEdge (.op i) := by
  rw [inputOf_encode]
  cases i with
  | reset => rfl
  | idle | reload | edge _ | edgeReload _ =>
    rw [stepFunction_lastEdge k (by simp [opOf])]
    simp [opOf, operandOf, tickAfter]

/-- The tick after a list of operations. -/
def tickAfterOps (c : Config) (t : Tick c) (ops : List Instr) : Tick c :=
  ops.foldl (fun t i => tickAfter c t (.op i)) t

theorem tickAfterOps_append (t : Tick c) (xs ys : List Instr) :
    tickAfterOps c t (xs ++ ys) = tickAfterOps c (tickAfterOps c t xs) ys := List.foldl_append

/-- The tie to the model: running the canonical words of operations leaves `last_edge` at their tick. -/
theorem runInputs_encode_lastEdge (k : CoreState c) (ops : List Instr) :
    (runInputs k ((ops.map (encode c)).map (inputOf c))).lastEdge = tickAfterOps c k.lastEdge ops := by
  induction ops generalizing k with
  | nil => rfl
  | cons i ops ih =>
    rw [List.map_cons, List.map_cons, runInputs_cons, ih, stepFunction_encode_lastEdge]
    rfl

/-- The operations of a statement move the tick as the statement moves `t`. -/
theorem tickAfterOps_expand (t : Tick c) (st : Statement) : tickAfterOps c t (expand c t st) = tickAfter c t st := by
  cases st with
  | op i => rfl
  | pulse d | pulseReload d => exact (BitVec.ofNat_toNat _ _).trans (BitVec.setWidth_eq _)
  | idles n =>
    show tickAfterOps c t (List.replicate n .idle) = t
    induction n with
    | zero => rfl
    | succ n ih => exact ih

theorem tickAfterOps_expandScript (t : Tick c) (script : List Statement) :
    tickAfterOps c t (expandScript c t script) = tickAtEnd c t script := by
  induction script generalizing t with
  | nil => rfl
  | cons st script ih =>
    rw [expandScript, tickAfterOps_append, tickAfterOps_expand, ih]
    rfl

/-- Settles O44: after the leading RESET both start at 0, whatever `last_edge` was. -/
theorem assemblerTracksLastEdge : Obligations.AssemblerTracksLastEdge := by
  intro c k script k'
  have hlast : k'.lastEdge = tickAtEnd c 0 (.op .reset :: script) :=
    (runInputs_encode_lastEdge k _).trans (tickAfterOps_expandScript 0 (.op .reset :: script))
  refine ⟨hlast, fun d hd => ?_⟩
  rw [← hlast]
  exact elapsedAt_lastEdge_add k' hd

end Sys2Proof.Machine
end
